-- ==== Sys2Proof/Word.lean ====
section
/-! DEFINITION. The two word types of the block: wire bytes and 16-bit checksums (spec/00_scope.md R6: BYTE_W, CRC_W). -/

namespace Sys2Proof

/-- A wire, buffer or payload byte (R6, `BYTE_W` = 8). -/
abbrev Byte := BitVec 8

/-- A checksum, a table entry, a command word (R6, `CRC_W` = 16; R7, `CMD_W` = 16). -/
abbrev Word := BitVec 16

end Sys2Proof
end

