-- ==== Sys2Proof/Config.lean ====
section
/-! DEFINITION. The protocol constants of spec/00_scope.md R6 and R7. None is configurable, and the spec leaves no value
of a running command open, so this file holds no free value. -/

namespace Sys2Proof.Config

/-- `PREAMBLE`, the frame start (R6, R45). -/
def preamble : List Byte := [0x16, 0x10, 0x02]

/-- `CHANNEL`, the channel byte the encoder emits (R6). -/
def channel : Byte := 0x01

/-- `ESC`, the byte value that is doubled (R6, R46). -/
def esc : Byte := 0x10

/-- The second byte of `POSTAMBLE` (R6). -/
def etx : Byte := 0x03

/-- `POSTAMBLE`, the end of the checksummed region (R6, R45). -/
def postamble : List Byte := [0x10, 0x03]

/-- `CRC_INIT` (R6). -/
def crcInit : Word := 0x0000

/-- `CRC_POLY_R`, the reflected generating polynomial (R6). -/
def crcPolyR : Word := 0xA001

/-- `MIN_FRAME` (R6). -/
def minFrame : Nat := 9

/-- `MAX_FRAME`, also the receive buffer capacity `RXBUF_CAP` (R6). -/
def maxFrame : Nat := 512

/-- `PAYLOAD_MAX_RX` (R7). -/
def payloadMaxRx : Nat := 503

/-- One more than the largest count the 10-bit `arg` of RX.PUSH can express (R59: "0 to 1023"). -/
def pushCountEnd : Nat := 1024

/-- `T_INACTIVITY`, in milliseconds (R6). The model has no time (log 17): no definition reads it. -/
def inactivityMs : Nat := 250

/-- `T_KEEPALIVE`, in milliseconds (R6). The model has no time (log 17): no definition reads it. -/
def keepaliveMs : Nat := 1000

end Sys2Proof.Config
end

