-- ==== Sys2Proof/Syntax.lean ====
section
/-! DEFINITION. The syntax: packet types, the instructions (one constructor per row of spec/opcode_table.json), the
pseudo-instructions of R64, assembler lines (R63) and the environment's events. -/

namespace Sys2Proof

/-- The closed enumeration PacketType (spec/30_encoding.md R51; 00_scope.md R6). -/
inductive PacketType where
  | acknowledge
  | disconnect
  | linkRequest
  | data
deriving DecidableEq, Repr

/-- A Message (R54): the operand of encode, the result of decode. -/
structure Message where
  type : PacketType
  seq : BitVec 3
  payload : List Byte
deriving DecidableEq, Repr

/-- One constructor per row of spec/opcode_table.json: the eleven commands of R59, then the four forms of the typeSeq
byte of R51. RX.PUSH carries its data bytes, as R61 says of the abstract syntax. -/
inductive Instr where
  /-- CRC.CLR (R75) -/
  | crcClr
  /-- CRC.FOLD b (R76) -/
  | crcFold (b : Byte)
  /-- CRC.RD (R77) -/
  | crcRd
  /-- ENC.START t, s (R86) -/
  | encStart (t : PacketType) (sq : BitVec 3)
  /-- ENC.DATA b (R87) -/
  | encData (b : Byte)
  /-- ENC.END (R88) -/
  | encEnd
  /-- RX.PUSH [b0 .. b(n-1)] (R101, R102) -/
  | rxPush (bytes : List Byte)
  /-- RX.EXTRACT c (R115) -/
  | rxExtract (consume : Bool)
  /-- RX.VALID (R124) -/
  | rxValid
  /-- RX.CLEAR (R104) -/
  | rxClear
  /-- STATUS (R106) -/
  | status
  /-- typeSeq byte 00000sss (R51, R52) -/
  | typeSeqAcknowledge (sq : BitVec 3)
  /-- typeSeq byte 00001sss (R51, R52) -/
  | typeSeqDisconnect (sq : BitVec 3)
  /-- typeSeq byte 00010sss (R51, R52) -/
  | typeSeqLinkRequest (sq : BitVec 3)
  /-- typeSeq byte 00011sss (R51, R52) -/
  | typeSeqData (sq : BitVec 3)
deriving DecidableEq, Repr

/-- The pseudo-instructions of spec/30_encoding.md R64: the source's own whole operations. -/
inductive Pseudo where
  /-- `CHECKSUM [b0 .. b(k-1)]` -/
  | checksum (bytes : List Byte)
  /-- `ENCODE t, s, [p0 .. p(k-1)]` -/
  | encode (t : PacketType) (sq : BitVec 3) (payload : List Byte)
  /-- `DELIVER [b0 .. b(n-1)]` -/
  | deliver (bytes : List Byte)
  /-- `PROBE` -/
  | probe
  /-- `DISCARD` -/
  | discard
deriving DecidableEq, Repr

/-- A token of the assembler's line syntax (R63). -/
inductive Token where
  /-- a mnemonic, a number or a name -/
  | word (w : List Char)
  | comma
  | openBracket
  | closeBracket
deriving DecidableEq, Repr

/-- What an assembler line stands for (R63). -/
inductive AsmLine where
  /-- nothing but blanks and a comment -/
  | blank
  | instr (i : Instr)
  | pseudo (p : Pseudo)
deriving DecidableEq, Repr

/-- What can happen in the environment (spec/44_link_session_environment.md R140, R149, R155; 60_exceptions.md R172). -/
inductive Event where
  /-- the host calls `send(type, payload)` (R141) -/
  | send (t : PacketType) (payload : List Byte)
  /-- the transport reports `k` bytes written (R143) -/
  | completion (k : Nat)
  /-- bytes reach the transport, where they are unread (R149); no handler runs -/
  | arrive (bytes : List Byte)
  /-- "data ready" (R144): `advertised` is `bytesAvailable()`'s answer, and `readAvailable()` gives the first `count`
  unread bytes (log 10) -/
  | dataAvailable (advertised count : Nat)
  /-- the single-shot inactivity timer fires (R146) -/
  | inactivityElapsed
  /-- the keepalive timer ticks (R150) -/
  | keepaliveTick
  /-- the Session is re-pointed at another transport (R155) -/
  | repoint
deriving DecidableEq, Repr

end Sys2Proof
end

