-- ==== Sys2Proof/WellFormed.lean ====
section
/-! DEFINITION. Which instructions an encoding can express. The operand types bound every operand but one: the count of
RX.PUSH is 10 bits (spec/30_encoding.md R59: "The `RX.PUSH` count can express 0 to 1023"). -/

namespace Sys2Proof

/-- The check, to run: RX.PUSH carries at most 1023 bytes. -/
def Instr.wf : Instr → Bool
  | .crcClr => true
  | .crcFold _ => true
  | .crcRd => true
  | .encStart _ _ => true
  | .encData _ => true
  | .encEnd => true
  | .rxPush bytes => decide (bytes.length < Config.pushCountEnd)
  | .rxExtract _ => true
  | .rxValid => true
  | .rxClear => true
  | .status => true
  | .typeSeqAcknowledge _ => true
  | .typeSeqDisconnect _ => true
  | .typeSeqLinkRequest _ => true
  | .typeSeqData _ => true

/-- An instruction some encoding stands for (R59). -/
abbrev Instr.WellFormed (i : Instr) : Prop := i.wf = true

end Sys2Proof
end

