-- ==== Sys2Proof/Decode.lean ====
section
/-! DEFINITION. Decoding and encoding: the command word (spec/30_encoding.md R58 to R61) and the typeSeq byte (R51, R52,
R56). Decoding is total: a word is an instruction, a reserved word by name, or a push whose bytes have not all arrived. -/

namespace Sys2Proof

/-! ## The typeSeq byte (R51) -/

/-- The value of a PacketType (R6, R51): 0 acknowledge, 1 disconnect, 2 linkRequest, 3 data. -/
def PacketType.bits : PacketType → BitVec 2
  | .acknowledge => 0
  | .disconnect => 1
  | .linkRequest => 2
  | .data => 3

/-- The PacketType with a 2-bit value (R51). -/
def PacketType.ofBits (v : BitVec 2) : PacketType :=
  if v = 0 then .acknowledge else if v = 1 then .disconnect else if v = 2 then .linkRequest else .data

/-- Assembly on encode (R51): `typeSeq = (type << 3) | sequence`, both zero-extended to 8 bits. -/
def typeSeqByte (t : PacketType) (sq : BitVec 3) : Byte :=
  (t.bits.setWidth 8 <<< 3) ||| sq.setWidth 8

/-- `type = byte >> 3`, where that is one of the four values; none for a reserved byte 0x20 to 0xFF (R51, R56, R120). -/
def typeSeqType (b : Byte) : Option PacketType :=
  if b >>> 3 > 3 then none else some (.ofBits ((b >>> 3).setWidth 2))

/-- `sequenceNo = byte & 0x7` (R51). -/
def typeSeqSeq (b : Byte) : BitVec 3 := (b &&& 0x7).setWidth 3

/-- The opcode-table row of a typeSeq byte (R51, R52). -/
def typeSeqInstr (t : PacketType) (sq : BitVec 3) : Instr :=
  match t with
  | .acknowledge => .typeSeqAcknowledge sq
  | .disconnect => .typeSeqDisconnect sq
  | .linkRequest => .typeSeqLinkRequest sq
  | .data => .typeSeqData sq

/-- A typeSeq byte as an instruction; none for the reserved bytes (R51, R56). -/
def decodeTypeSeq (b : Byte) : Option Instr :=
  (typeSeqType b).map fun t => typeSeqInstr t (typeSeqSeq b)

/-! ## The command word (R58, R59) -/

/-- The eleven rows of R59. -/
inductive Op where
  | crcClr | crcFold | crcRd | encStart | encData | encEnd | rxPush | rxExtract | rxValid | rxClear | status
deriving DecidableEq, Repr

/-- A row of the opcode map (R59). -/
structure OpRow where
  op : Op
  pattern : Word
  mask : Word
deriving DecidableEq, Repr

/-- The opcode map of R59, in its order. -/
def opTable : List OpRow :=
  [ ⟨.crcClr, 0x1000, 0xFFFF⟩,
    ⟨.crcFold, 0x2000, 0xFF00⟩,
    ⟨.crcRd, 0x3000, 0xFFFF⟩,
    ⟨.encStart, 0x4000, 0xFFE0⟩,
    ⟨.encData, 0x5000, 0xFF00⟩,
    ⟨.encEnd, 0x6000, 0xFFFF⟩,
    ⟨.rxPush, 0x8000, 0xFC00⟩,
    ⟨.rxExtract, 0x9000, 0xFFFE⟩,
    ⟨.rxValid, 0xA000, 0xFFFF⟩,
    ⟨.rxClear, 0xB000, 0xFFFF⟩,
    ⟨.status, 0xC000, 0xFFFF⟩ ]

/-- "A word `w` selects a row exactly when `w & mask = match`" (R59). -/
def OpRow.selects (r : OpRow) (w : Word) : Bool := w &&& r.mask == r.pattern

/-- The row a word selects, if any (R59: the rows are disjoint). -/
def selectRow (w : Word) : Option OpRow := opTable.find? (·.selects w)

/-- `op`, bits 15:12 (R58). -/
def opField (w : Word) : BitVec 4 := w.extractLsb' 12 4

/-- `z`, bits 11:10, must be 0 (R58). -/
def zField (w : Word) : BitVec 2 := w.extractLsb' 10 2

/-- `arg`, bits 9:0 (R58). -/
def argField (w : Word) : BitVec 10 := w.extractLsb' 0 10

/-- Why a word is reserved (R60): its op value, its z bits, or a reserved arg bit. -/
inductive ReservedWord where
  /-- op is 0x0, 0x7, 0xD, 0xE or 0xF -/
  | op
  /-- z is not 0 -/
  | z
  /-- a reserved arg bit is not 0 -/
  | arg
deriving DecidableEq, Repr

/-- The name of a reserved word's fault (R60), for a word that selects no row. -/
def reservedName (w : Word) : ReservedWord :=
  if opField w ∈ ([0x0, 0x7, 0xD, 0xE, 0xF] : List (BitVec 4)) then .op
  else if zField w ≠ 0 then .z
  else .arg

/-- What the decoder answers for a word on `cmd` and the bytes pending on `rx_in`. -/
inductive Decoded where
  /-- an instruction, and the bytes that stay pending on `rx_in` -/
  | instr (i : Instr) (rest : List Byte)
  /-- a reserved word (R60); no `rx_in` byte is taken (R169) -/
  | reserved (why : ReservedWord)
  /-- a well-formed RX.PUSH whose `count` bytes are not all on `rx_in` yet: it waits (R61, log 3) -/
  | starved (count : Nat)
deriving DecidableEq, Repr

/-- The operands of a row's command (R59), and RX.PUSH's data phase (R61): exactly `arg` bytes from `rx_in`, in order. -/
def decodeOperands (op : Op) (w : Word) (rxIn : List Byte) : Decoded :=
  match op with
  | .crcClr => .instr .crcClr rxIn
  | .crcFold => .instr (.crcFold (w.extractLsb' 0 8)) rxIn
  | .crcRd => .instr .crcRd rxIn
  | .encStart => .instr (.encStart (.ofBits (w.extractLsb' 3 2)) (w.extractLsb' 0 3)) rxIn
  | .encData => .instr (.encData (w.extractLsb' 0 8)) rxIn
  | .encEnd => .instr .encEnd rxIn
  | .rxPush =>
    let n := (argField w).toNat
    if rxIn.length < n then .starved n else .instr (.rxPush (rxIn.take n)) (rxIn.drop n)
  | .rxExtract => .instr (.rxExtract (w.getLsbD 0)) rxIn
  | .rxValid => .instr .rxValid rxIn
  | .rxClear => .instr .rxClear rxIn
  | .status => .instr .status rxIn

/-- The command decoder (R59, R60, R61): the word is matched before anything else (R171). -/
def decode (w : Word) (rxIn : List Byte) : Decoded :=
  match selectRow w with
  | some r => decodeOperands r.op w rxIn
  | none => .reserved (reservedName w)

/-! ## The encoder -/

/-- An instruction as it stands on the ports: a command word with its data bytes, or a typeSeq byte. -/
inductive Encoded where
  | cmd (w : Word) (data : List Byte)
  | typeSeq (b : Byte)
deriving DecidableEq, Repr

/-- The encoding of an instruction (R51, R59, R61). An RX.PUSH of more than 1023 bytes is not well-formed; its count
field is then the length modulo 1024. -/
def encode : Instr → Encoded
  | .crcClr => .cmd 0x1000 []
  | .crcFold b => .cmd (0x2000 ||| b.setWidth 16) []
  | .crcRd => .cmd 0x3000 []
  | .encStart t sq => .cmd (0x4000 ||| (t.bits.setWidth 16 <<< 3) ||| sq.setWidth 16) []
  | .encData b => .cmd (0x5000 ||| b.setWidth 16) []
  | .encEnd => .cmd 0x6000 []
  | .rxPush bytes => .cmd (0x8000 ||| (BitVec.ofNat 10 bytes.length).setWidth 16) bytes
  | .rxExtract c => .cmd (0x9000 ||| (BitVec.ofBool c).setWidth 16) []
  | .rxValid => .cmd 0xA000 []
  | .rxClear => .cmd 0xB000 []
  | .status => .cmd 0xC000 []
  | .typeSeqAcknowledge sq => .typeSeq (typeSeqByte .acknowledge sq)
  | .typeSeqDisconnect sq => .typeSeq (typeSeqByte .disconnect sq)
  | .typeSeqLinkRequest sq => .typeSeq (typeSeqByte .linkRequest sq)
  | .typeSeqData sq => .typeSeq (typeSeqByte .data sq)

/-- Decoding an encoding with further bytes pending on `rx_in` behind its own: the instruction and the bytes left. -/
def decodeEncoded (e : Encoded) (pending : List Byte) : Option (Instr × List Byte) :=
  match e with
  | .cmd w data =>
    match decode w (data ++ pending) with
    | .instr i rest => some (i, rest)
    | .reserved _ => none
    | .starved _ => none
  | .typeSeq b => (decodeTypeSeq b).map fun i => (i, pending)

/-! ## The host's numbering of an instruction's bits -/

/-- The first `n` bytes of a number, its low byte first. -/
def bytesOfNat : Nat → Nat → List Byte
  | 0, _ => []
  | n + 1, v => BitVec.ofNat 8 v :: bytesOfNat n (v / 256)

/-- The `rx_in` bytes that follow a 16-bit command word in a table word: as many as the word takes, from bit 16 on. -/
def tableDataBytes (v : Nat) : List Byte :=
  let w := BitVec.ofNat 16 v
  if (selectRow w).map (·.op) = some Op.rxPush then bytesOfNat (argField w).toNat (v / 65536) else []

/-- The instruction the decoder reads from a word numbered as spec/opcode_table.json numbers it: `nbits` of 8 is a
typeSeq byte (format TYPESEQ), more is a command word and what follows it (format CMD); bits at and above `nbits` are 0. -/
def decodeTableWord (nbits w : Nat) : Option Instr :=
  let v := w % 2 ^ nbits
  if nbits ≤ 8 then decodeTypeSeq (BitVec.ofNat 8 v)
  else
    match decode (BitVec.ofNat 16 v) (tableDataBytes v) with
    | .instr i _ => some i
    | .reserved _ => none
    | .starved _ => none

end Sys2Proof
end

