-- ==== Sys2Proof/Machine/State.lean ====
section
/-! DEFINITION. The state of the machine: the block (spec/10_state.md R10), the environment that drives it (R23), and the
ports between them and the outside (R19 to R21), each as plain data; the fault and refusal names; the state after reset. -/

namespace Sys2Proof.Machine

/-- A byte memory: (offset, byte) pairs, offsets strictly rising; an unlisted offset holds no value (R18, log 5). -/
abbrev Memory := List Host.Cell

/-- `enc_phase` (R13). -/
inductive EncPhase where
  /-- `IDLE` (0) -/
  | idle
  /-- `BODY` (1): between a successful ENC.START and the next successful ENC.END -/
  | body
deriving DecidableEq, Repr

/-- The block's whole state but for the constant `crc_table` (R10, R11, R13, R14, R18, R20; log 4). -/
structure Block where
  /-- `crc_acc`, the user-visible accumulator (R11) -/
  crcAcc : Word
  /-- `tx_crc`, the encoder's running checksum (R11) -/
  txCrc : Word
  /-- `rx_len`, the number of valid bytes in `rx_buf` (R11) -/
  rxLen : BitVec 10
  /-- `enc_phase` (R13) -/
  encPhase : EncPhase
  /-- `rx_ovr`, the sticky overrun flag (R14) -/
  rxOvr : Bool
  /-- `rx_buf` (R18) -/
  rxBuf : Memory
  /-- `tx_out`, the bytes emitted and not yet taken by the environment, oldest first (R20) -/
  txOut : List Byte
deriving DecidableEq, Repr

/-- The six statuses (spec/60_exceptions.md R166). -/
inductive Status where
  | ok
  | noFrame
  | corrupt
  | overrun
  | badType
  | badCmd
deriving DecidableEq, Repr

/-- A response: the status and the result fields of spec/30_encoding.md R62. -/
inductive Response where
  /-- OK, no fields -/
  | ok
  /-- OK with `value`: CRC.RD, STATUS -/
  | okValue (value : Word)
  /-- OK with `valid`: RX.VALID -/
  | okValid (valid : Bool)
  /-- OK with `type`, `seq`, `len`, `payload`: RX.EXTRACT -/
  | okMessage (m : Message)
  /-- NOFRAME -/
  | noFrame
  /-- CORRUPT with its two diagnostic values (R119) -/
  | corrupt (computed expected : Word)
  /-- OVERRUN -/
  | overrun
  /-- BADTYPE with the offending byte (R120) -/
  | badType (byte : Byte)
  /-- BADCMD -/
  | badCmd
deriving DecidableEq, Repr

/-- What the outside may do to the block's ports at any time, a command that waits for its data included (log 3). -/
inductive Signal where
  /-- reset of the block: "can be applied at any time" (spec/70_reset_and_hazards.md R190) -/
  | reset
  /-- the environment takes the first `n` bytes of `tx_out`, "at any time" (R20) -/
  | takeTx (n : Nat)
  /-- bytes are offered on `rx_in`, behind those already there (R19, R61) -/
  | rxIn (bytes : List Byte)
deriving DecidableEq, Repr

/-- One thing the outside offers the system, in the order it offers them (spec/00_scope.md R8; log 2). -/
inductive Input where
  /-- a 16-bit word on `cmd` (R19) -/
  | cmd (w : Word)
  /-- a typeSeq byte offered alone to the codec of R51 (log 7) -/
  | typeSeq (b : Byte)
  /-- an event of the environment (R140) -/
  | event (e : Event)
  /-- a reset, a taking from `tx_out`, or bytes on `rx_in` -/
  | signal (g : Signal)
deriving DecidableEq, Repr

/-- The environment's diagnostics: named events with no effect on state (R143, R145, R150, R181). -/
inductive Diagnostic where
  | shortRead
  | writeOverrun
  | linkBusy
deriving DecidableEq, Repr

/-- What the Link Session gives its host and its transport (R141, R144, R149, R154, R172). -/
inductive HostOutput where
  /-- what `send` returned (R141) -/
  | sendResult (ok : Bool)
  /-- `transport.write(frame)`, one asynchronous write request (R141) -/
  | write (frame : List Byte)
  /-- `packetReceived(Message)` (R144) -/
  | packetReceived (m : Message)
  /-- the "distinct fault to the host" on OVERRUN (R144, R168) -/
  | overrun
  /-- a log line (R181) -/
  | diagnostic (d : Diagnostic)
deriving DecidableEq, Repr

/-- The environment's state (R23); none of it is inside the block (R4). -/
structure Env where
  /-- `busy`, the single-flight send gate -/
  busy : Bool
  /-- `outstanding`, bytes of the write in flight not yet reported written -/
  outstanding : Nat
  /-- `seq_ctr` -/
  seqCtr : BitVec 3
  /-- `inact_armed` -/
  inactArmed : Bool
  /-- `connected` (R151: never becomes true) -/
  connected : Bool
  /-- `send_queue` (R152: never filled, never drained) -/
  sendQueue : List Message
  /-- the transport's unread bytes, oldest first (R23, R149; log 10) -/
  unread : List Byte
deriving DecidableEq, Repr

/-- The ports (R19, R20, R21) and the environment's outward side: pending inputs, and logs of outputs that no rule
reads. The model's own fields (log 1, 2, 6, 7, 16). -/
structure Ports where
  /-- pending inputs, oldest first -/
  inputs : List Input
  /-- bytes pending on `rx_in`, in arrival order -/
  rxIn : List Byte
  /-- responses produced on `resp`, oldest first -/
  resp : List Response
  /-- fields read from typeSeq bytes offered alone, oldest first -/
  typeSeqRead : List (PacketType × BitVec 3)
  /-- bytes the environment has taken from `tx_out`, oldest first -/
  txTaken : List Byte
  /-- the environment's outputs, oldest first -/
  host : List HostOutput
deriving DecidableEq, Repr

/-- The machine. -/
structure State where
  block : Block
  env : Env
  ports : Ports
deriving DecidableEq, Repr

/-- Why the machine stops. The block itself has no fault (R170: "No trap"). -/
inductive Fault where
  /-- raised by RX.EXTRACT and RX.VALID, when an offset of `rx_buf` below `rx_len` holds no value; no run reaches such a
  state (R18, R26), and stopping is safe (log 5) -/
  | rxBufNoValue
deriving DecidableEq, Repr

/-- What the model has no step for. -/
inductive Refusal where
  /-- raised by exec for an instruction that has no meaning yet; safe -/
  | notModelled (mnemonic : String)
  /-- raised by the event `repoint`: "A model refuses (has no step for) a change of transport" (R155); safe (log 13) -/
  | transportRepointed
  /-- raised by the event `inactivityElapsed` while `inact_armed = 0`, when it never occurs (R146); safe (log 12) -/
  | inactivityNotArmed
  /-- raised by the step for a reserved typeSeq byte (0x20 to 0xFF, R56) offered alone; safe (log 8) -/
  | reservedTypeSeq (byte : Byte)
deriving DecidableEq, Repr

/-- The block after reset (R25, R190). -/
def Block.reset : Block :=
  { crcAcc := 0x0000, txCrc := 0x0000, rxLen := 0, encPhase := .idle, rxOvr := false, rxBuf := [], txOut := [] }

/-- The environment after reset (R23, R191). -/
def Env.reset : Env :=
  { busy := false, outstanding := 0, seqCtr := 0, inactArmed := false, connected := false, sendQueue := [], unread := [] }

/-- The ports with nothing pending and nothing produced (log 16). -/
def Ports.reset : Ports :=
  { inputs := [], rxIn := [], resp := [], typeSeqRead := [], txTaken := [], host := [] }

/-- The machine right after reset (R25, R190, R191): it waits for its first input. -/
def State.reset : State := { block := .reset, env := .reset, ports := .reset }

end Sys2Proof.Machine
end

