-- ==== Sys2Proof/Machine/Ops.lean ====
section
/-! DEFINITION. The named operations over `rx_buf`, `tx_out` and `resp`: reading and writing one byte, the valid bytes of
the buffer, emitting, clearing, and ending a command with its response, which is where every abnormal outcome of the block
goes too (spec/60_exceptions.md R165, R170: there is no trap, so `raise` is a response and nothing else). -/

namespace Sys2Proof.Machine

/-! ## Byte memory -/

/-- `MemRead(a, 1)`: the byte at an offset; none where the memory holds no value (R18, log 5). -/
def Memory.read : Memory → Nat → Option Byte
  | [], _ => none
  | (b, v) :: m, a => if b = a then some v else Memory.read m a

/-- `MemWrite(a, 1, v)`: sets one byte and keeps the offsets rising. -/
def Memory.write : Memory → Nat → Byte → Memory
  | [], a, v => [(a, v)]
  | (b, w) :: m, a, v =>
    if a < b then (a, v) :: (b, w) :: m
    else if a = b then (a, v) :: m
    else (b, w) :: Memory.write m a v

/-- `for k = 0 .. n-1: MemWrite(a + k, 1, b_k)` (R101). -/
def Memory.writeBytes : Memory → Nat → List Byte → Memory
  | m, _, [] => m
  | m, a, b :: bs => Memory.writeBytes (Memory.write m a b) (a + 1) bs

/-- The `n` bytes from offset `a` on; none if one of them holds no value. -/
def Memory.readBytes (m : Memory) : Nat → Nat → Option (List Byte)
  | _, 0 => some []
  | a, n + 1 =>
    match m.read a, m.readBytes (a + 1) n with
    | some b, some bs => some (b :: bs)
    | _, _ => none

/-- The canonical form of `rx_buf`: offsets strictly rising and inside the 512 locations (R18). No entry can equal what
an unlisted offset reads as, since that is no value. -/
def Memory.wf : Memory → Bool
  | [] => true
  | [(a, _)] => decide (a < Config.maxFrame)
  | (a, _) :: (b, w) :: m => decide (a < b) && Memory.wf ((b, w) :: m)

/-! ## The block -/

/-- `rx_buf[0 .. rx_len)`, the whole current buffer (R115); none if one of those offsets holds no value. -/
def Block.rxBytes (b : Block) : Option (List Byte) := b.rxBuf.readBytes 0 b.rxLen.toNat

/-- `emit(b)` for each byte in order (R20). -/
def Block.emit (b : Block) (bytes : List Byte) : Block := { b with txOut := b.txOut ++ bytes }

/-- Clearing the receive buffer (R104, R123): `rx_len <- 0`, `rx_ovr <- 0`; no offset holds a value any more (R18). -/
def Block.clearRx (b : Block) : Block := { b with rxLen := 0, rxOvr := false, rxBuf := [] }

/-! ## Ending a command (R165) -/

/-- A command ends: its writes take effect together, and its one response appears on `resp` (R37, R38, R165). `raise`
is this with the block as the rule left it before the `raise` (R165, R170). -/
def State.complete (s : State) (e : Block × Response) : State :=
  { s with block := e.1, ports := { s.ports with resp := s.ports.resp ++ [e.2] } }

/-- An output of the environment to its host or its transport (R141, R144, R181). -/
def State.output (s : State) (o : HostOutput) : State :=
  { s with ports := { s.ports with host := s.ports.host ++ [o] } }

/-- The fields of a typeSeq byte offered alone appear on the codec's own port (R51, log 7). -/
def State.readTypeSeq (s : State) (t : PacketType) (sq : BitVec 3) : State :=
  { s with ports := { s.ports with typeSeqRead := s.ports.typeSeqRead ++ [(t, sq)] } }

/-- The status of a response (R62). -/
def Response.status : Response → Status
  | .ok => .ok
  | .okValue _ => .ok
  | .okValid _ => .ok
  | .okMessage _ => .ok
  | .noFrame => .noFrame
  | .corrupt _ _ => .corrupt
  | .overrun => .overrun
  | .badType _ => .badType
  | .badCmd => .badCmd

/-- The 3-bit status codes (R166); 6 and 7 are never produced. -/
def Status.code : Status → BitVec 3
  | .ok => 0
  | .noFrame => 1
  | .corrupt => 2
  | .overrun => 3
  | .badType => 4
  | .badCmd => 5

/-- `len[8:0]`, the payload length field of RX.EXTRACT's response (R62). -/
def lenField (m : Message) : BitVec 9 := BitVec.ofNat 9 m.payload.length

end Sys2Proof.Machine
end

