-- ==== Sys2Proof/Machine/Operands.lean ====
section
/-! DEFINITION. The operand helpers of the rules: list elements and sub-lists (spec/00_scope.md, section 5), the two bytes
of a checksum and the checksum of two bytes (spec/20_memory.md R31), and stuffing (spec/30_encoding.md R46). The fields of
the command word and of the typeSeq byte are in Decode.lean. -/

namespace Sys2Proof.Machine

/-- `l[i]`. Every index a rule uses is in bounds (R36), so the 0 is never the answer (log 18). -/
def byteAt (l : List Byte) (i : Nat) : Byte := l.getD i 0

/-- `l[a..b)`: indices `a` to `b - 1`, empty when `a >= b`. -/
def sublist (l : List Byte) (a b : Nat) : List Byte := (l.take b).drop a

/-- Bits 15:8, the byte sent first and stored at the lower offset (R31). -/
def highByte (v : Word) : Byte := v.extractLsb' 8 8

/-- Bits 7:0 (R31). -/
def lowByte (v : Word) : Byte := v.extractLsb' 0 8

/-- `(hi << 8) | lo` (R31). -/
def bigEndian (hi lo : Byte) : Word := (hi.setWidth 16 <<< 8) ||| lo.setWidth 16

/-- The wire bytes of one logical byte: 0x10 is doubled, no other value is altered (R46). -/
def stuff (b : Byte) : List Byte := if b = Config.esc then [b, b] else [b]

/-- The wire bytes of a list of logical bytes (R46). -/
def stuffAll (l : List Byte) : List Byte := l.flatMap stuff

end Sys2Proof.Machine
end

