-- ==== Sys2Proof/Machine/Flags.lean ====
section
/-! DEFINITION. The one flag and the status word: when a delivery overruns (spec/42_rx_buffer.md R101, R102), and the word
STATUS reads (spec/10_state.md R15, 42_rx_buffer.md R106). There are no condition codes (R14). -/

namespace Sys2Proof.Machine

/-- `rx_len + n > 512`, on unbounded numbers (R101, R102). -/
def overruns (b : Block) (n : Nat) : Bool := decide (b.rxLen.toNat + n > Config.maxFrame)

/-- The bit of `enc_phase`: 0 `IDLE`, 1 `BODY` (R13). -/
def EncPhase.bit : EncPhase → BitVec 1
  | .idle => 0
  | .body => 1

/-- `zext_16((enc_phase << 11) | (rx_ovr << 10) | rx_len)` (R15, R106). -/
def statusWord (b : Block) : Word :=
  (b.encPhase.bit.setWidth 16 <<< 11) ||| ((BitVec.ofBool b.rxOvr).setWidth 16 <<< 10) ||| b.rxLen.setWidth 16

end Sys2Proof.Machine
end

