-- ==== Sys2Proof/Machine/Crc.lean ====
section
/-! DEFINITION. The CRC Engine (spec/40_crc.md): the constant table, fold, checksum, and the meanings of CRC.CLR, CRC.FOLD
and CRC.RD. -/

namespace Sys2Proof.Machine

/-! ## The table (R70, R71) -/

/-- `swap16(v)` = `((v & 0xFF) << 8) | (v >> 8)` (spec/00_scope.md, section 5). -/
def swap16 (v : Word) : Word := ((v &&& 0xFF) <<< 8) ||| (v >>> 8)

/-- One reflected-division step (R70). -/
def divisionStep (c : Word) : Word := if c.getLsbD 0 then (c >>> 1) ^^^ Config.crcPolyR else c >>> 1

/-- `n` reflected-division steps (R70). -/
def divisionSteps : Nat → Word → Word
  | 0, c => c
  | n + 1, c => divisionSteps n (divisionStep c)

/-- `raw[i]`, the unswapped result of the eight steps from `zext_16(i)` (R70, R74). -/
def rawEntry (i : Byte) : Word := divisionSteps 8 (i.setWidth 16)

/-- Entries 0x00 to 0x0F of `crc_table` (R71). -/
def crcRow0 : List Word :=
  [0x0000, 0xC1C0, 0x81C1, 0x4001, 0x01C3, 0xC003, 0x8002, 0x41C2,
   0x01C6, 0xC006, 0x8007, 0x41C7, 0x0005, 0xC1C5, 0x81C4, 0x4004]

/-- Entries 0x10 to 0x1F of `crc_table` (R71). -/
def crcRow1 : List Word :=
  [0x01CC, 0xC00C, 0x800D, 0x41CD, 0x000F, 0xC1CF, 0x81CE, 0x400E,
   0x000A, 0xC1CA, 0x81CB, 0x400B, 0x01C9, 0xC009, 0x8008, 0x41C8]

/-- Entries 0x20 to 0x2F of `crc_table` (R71). -/
def crcRow2 : List Word :=
  [0x01D8, 0xC018, 0x8019, 0x41D9, 0x001B, 0xC1DB, 0x81DA, 0x401A,
   0x001E, 0xC1DE, 0x81DF, 0x401F, 0x01DD, 0xC01D, 0x801C, 0x41DC]

/-- Entries 0x30 to 0x3F of `crc_table` (R71). -/
def crcRow3 : List Word :=
  [0x0014, 0xC1D4, 0x81D5, 0x4015, 0x01D7, 0xC017, 0x8016, 0x41D6,
   0x01D2, 0xC012, 0x8013, 0x41D3, 0x0011, 0xC1D1, 0x81D0, 0x4010]

/-- Entries 0x40 to 0x4F of `crc_table` (R71). -/
def crcRow4 : List Word :=
  [0x01F0, 0xC030, 0x8031, 0x41F1, 0x0033, 0xC1F3, 0x81F2, 0x4032,
   0x0036, 0xC1F6, 0x81F7, 0x4037, 0x01F5, 0xC035, 0x8034, 0x41F4]

/-- Entries 0x50 to 0x5F of `crc_table` (R71). -/
def crcRow5 : List Word :=
  [0x003C, 0xC1FC, 0x81FD, 0x403D, 0x01FF, 0xC03F, 0x803E, 0x41FE,
   0x01FA, 0xC03A, 0x803B, 0x41FB, 0x0039, 0xC1F9, 0x81F8, 0x4038]

/-- Entries 0x60 to 0x6F of `crc_table` (R71). -/
def crcRow6 : List Word :=
  [0x0028, 0xC1E8, 0x81E9, 0x4029, 0x01EB, 0xC02B, 0x802A, 0x41EA,
   0x01EE, 0xC02E, 0x802F, 0x41EF, 0x002D, 0xC1ED, 0x81EC, 0x402C]

/-- Entries 0x70 to 0x7F of `crc_table` (R71). -/
def crcRow7 : List Word :=
  [0x01E4, 0xC024, 0x8025, 0x41E5, 0x0027, 0xC1E7, 0x81E6, 0x4026,
   0x0022, 0xC1E2, 0x81E3, 0x4023, 0x01E1, 0xC021, 0x8020, 0x41E0]

/-- Entries 0x80 to 0x8F of `crc_table` (R71). -/
def crcRow8 : List Word :=
  [0x01A0, 0xC060, 0x8061, 0x41A1, 0x0063, 0xC1A3, 0x81A2, 0x4062,
   0x0066, 0xC1A6, 0x81A7, 0x4067, 0x01A5, 0xC065, 0x8064, 0x41A4]

/-- Entries 0x90 to 0x9F of `crc_table` (R71). -/
def crcRow9 : List Word :=
  [0x006C, 0xC1AC, 0x81AD, 0x406D, 0x01AF, 0xC06F, 0x806E, 0x41AE,
   0x01AA, 0xC06A, 0x806B, 0x41AB, 0x0069, 0xC1A9, 0x81A8, 0x4068]

/-- Entries 0xA0 to 0xAF of `crc_table` (R71). -/
def crcRowA : List Word :=
  [0x0078, 0xC1B8, 0x81B9, 0x4079, 0x01BB, 0xC07B, 0x807A, 0x41BA,
   0x01BE, 0xC07E, 0x807F, 0x41BF, 0x007D, 0xC1BD, 0x81BC, 0x407C]

/-- Entries 0xB0 to 0xBF of `crc_table` (R71). -/
def crcRowB : List Word :=
  [0x01B4, 0xC074, 0x8075, 0x41B5, 0x0077, 0xC1B7, 0x81B6, 0x4076,
   0x0072, 0xC1B2, 0x81B3, 0x4073, 0x01B1, 0xC071, 0x8070, 0x41B0]

/-- Entries 0xC0 to 0xCF of `crc_table` (R71). -/
def crcRowC : List Word :=
  [0x0050, 0xC190, 0x8191, 0x4051, 0x0193, 0xC053, 0x8052, 0x4192,
   0x0196, 0xC056, 0x8057, 0x4197, 0x0055, 0xC195, 0x8194, 0x4054]

/-- Entries 0xD0 to 0xDF of `crc_table` (R71). -/
def crcRowD : List Word :=
  [0x019C, 0xC05C, 0x805D, 0x419D, 0x005F, 0xC19F, 0x819E, 0x405E,
   0x005A, 0xC19A, 0x819B, 0x405B, 0x0199, 0xC059, 0x8058, 0x4198]

/-- Entries 0xE0 to 0xEF of `crc_table` (R71). -/
def crcRowE : List Word :=
  [0x0188, 0xC048, 0x8049, 0x4189, 0x004B, 0xC18B, 0x818A, 0x404A,
   0x004E, 0xC18E, 0x818F, 0x404F, 0x018D, 0xC04D, 0x804C, 0x418C]

/-- Entries 0xF0 to 0xFF of `crc_table` (R71). -/
def crcRowF : List Word :=
  [0x0044, 0xC184, 0x8185, 0x4045, 0x0187, 0xC047, 0x8046, 0x4186,
   0x0182, 0xC042, 0x8043, 0x4183, 0x0041, 0xC181, 0x8180, 0x4040]

/-- The 256 entries of `crc_table`, entry by entry (R17, R71). -/
def crcTable : List Word :=
  crcRow0 ++ crcRow1 ++ crcRow2 ++ crcRow3 ++ crcRow4 ++ crcRow5 ++ crcRow6 ++ crcRow7 ++
  crcRow8 ++ crcRow9 ++ crcRowA ++ crcRowB ++ crcRowC ++ crcRowD ++ crcRowE ++ crcRowF

/-- `TblRead(i)` = `crc_table[i]`; an 8-bit index is always in bounds (R34, R36), so the 0 is never the answer (log 18). -/
def tblRead (i : Byte) : Word := crcTable.getD i.toNat 0

/-! ## The update function (R72, R73) -/

/-- `fold(s, b) = trunc_16((s << 8) xor crc_table[b xor (s >> 8)])` (R72). -/
def fold (s : Word) (b : Byte) : Word := (s <<< 8) ^^^ tblRead (b ^^^ highByte s)

/-- `fold` over a list of bytes, from a given accumulator. -/
def foldAll (c : Word) (bytes : List Byte) : Word := bytes.foldl fold c

/-- `checksum(bytes)`: the left fold of `fold` from 0x0000, with no final step (R73). -/
def checksum (bytes : List Byte) : Word := foldAll Config.crcInit bytes

/-! ## The commands -/

/-- CRC.CLR (R75). -/
def crcClrEffect (b : Block) : Block × Response := ({ b with crcAcc := Config.crcInit }, .ok)

/-- CRC.FOLD b (R76). -/
def crcFoldEffect (x : Byte) (b : Block) : Block × Response := ({ b with crcAcc := fold b.crcAcc x }, .ok)

/-- CRC.RD (R77): reading does not clear the accumulator. -/
def crcRdEffect (b : Block) : Block × Response := (b, .okValue b.crcAcc)

/-- The meaning of CRC.CLR (R75). -/
def execCrcClr (s : State) : Host.Outcome State Fault Refusal := .next (s.complete (crcClrEffect s.block))

/-- The meaning of CRC.FOLD (R76). -/
def execCrcFold (b : Byte) (s : State) : Host.Outcome State Fault Refusal :=
  .next (s.complete (crcFoldEffect b s.block))

/-- The meaning of CRC.RD (R77). -/
def execCrcRd (s : State) : Host.Outcome State Fault Refusal := .next (s.complete (crcRdEffect s.block))

end Sys2Proof.Machine
end

