-- ==== Sys2Proof/Machine/Encoder.lean ====
section
/-! DEFINITION. The Frame Encoder (spec/41_encoder.md): the one-call function encode, and the meanings of ENC.START,
ENC.DATA and ENC.END. -/

namespace Sys2Proof.Machine

/-! ## The function (R85) -/

/-- The last four bytes of a frame: postamble, then the checksum, high byte first and never stuffed (R45, R47, R85). -/
def frameTail (c : Word) : List Byte := Config.postamble ++ [highByte c, lowByte c]

/-- The logical bytes of a frame, the checksum's input: channel, typeSeq, payload (R48). -/
def logicalBytes (t : PacketType) (sq : BitVec 3) (payload : List Byte) : List Byte :=
  Config.channel :: typeSeqByte t sq :: payload

/-- `encode(type, sequence, payload)` (R85): every logical byte is folded once and emitted stuffed. -/
def encodeFrame (t : PacketType) (sq : BitVec 3) (payload : List Byte) : List Byte :=
  Config.preamble ++ stuffAll (logicalBytes t sq payload) ++ frameTail (checksum (logicalBytes t sq payload))

/-! ## The commands -/

/-- `put(b)` of R85, as ENC.START and ENC.DATA perform it: fold the logical byte once, emit it stuffed (R86, R87). -/
def Block.put (b : Block) (x : Byte) : Block := { b with txCrc := fold b.txCrc x }.emit (stuff x)

/-- ENC.START t, s (R86): refused in `BODY`; else preamble, channel and typeSeq, from a fresh accumulator. -/
def encStartEffect (t : PacketType) (sq : BitVec 3) (b : Block) : Block × Response :=
  match b.encPhase with
  | .body => (b, .badCmd)
  | .idle =>
    let opened := { b.emit Config.preamble with txCrc := Config.crcInit }
    ({ (opened.put Config.channel).put (typeSeqByte t sq) with encPhase := .body }, .ok)

/-- ENC.DATA b (R87): refused in `IDLE`. -/
def encDataEffect (x : Byte) (b : Block) : Block × Response :=
  match b.encPhase with
  | .idle => (b, .badCmd)
  | .body => (b.put x, .ok)

/-- ENC.END (R88): refused in `IDLE`; `tx_crc` keeps its value. -/
def encEndEffect (b : Block) : Block × Response :=
  match b.encPhase with
  | .idle => (b, .badCmd)
  | .body => ({ b.emit (frameTail b.txCrc) with encPhase := .idle }, .ok)

/-- The meaning of ENC.START (R86). -/
def execEncStart (t : PacketType) (sq : BitVec 3) (s : State) : Host.Outcome State Fault Refusal :=
  .next (s.complete (encStartEffect t sq s.block))

/-- The meaning of ENC.DATA (R87). -/
def execEncData (b : Byte) (s : State) : Host.Outcome State Fault Refusal :=
  .next (s.complete (encDataEffect b s.block))

/-- The meaning of ENC.END (R88). -/
def execEncEnd (s : State) : Host.Outcome State Fault Refusal := .next (s.complete (encEndEffect s.block))

end Sys2Proof.Machine
end

