-- ==== Sys2Proof/Machine/RxBuffer.lean ====
section
/-! DEFINITION. The receive buffer's commands (spec/42_rx_buffer.md): the meanings of RX.PUSH, RX.CLEAR and STATUS. -/

namespace Sys2Proof.Machine

/-- RX.PUSH (R101, R102): the whole delivery is appended, or, when it would pass 512 bytes, wholly dropped. Its bytes
have left `rx_in` either way (R61, in the step). -/
def rxPushEffect (bytes : List Byte) (b : Block) : Block × Response :=
  if overruns b bytes.length then ({ b with rxOvr := true }, .overrun)
  else
    ({ b with
        rxBuf := b.rxBuf.writeBytes b.rxLen.toNat bytes
        rxLen := BitVec.ofNat 10 (b.rxLen.toNat + bytes.length) }, .ok)

/-- RX.CLEAR (R104). -/
def rxClearEffect (b : Block) : Block × Response := (b.clearRx, .ok)

/-- STATUS (R106). -/
def statusEffect (b : Block) : Block × Response := (b, .okValue (statusWord b))

/-- The meaning of RX.PUSH (R101, R102). -/
def execRxPush (bytes : List Byte) (s : State) : Host.Outcome State Fault Refusal :=
  .next (s.complete (rxPushEffect bytes s.block))

/-- The meaning of RX.CLEAR (R104). -/
def execRxClear (s : State) : Host.Outcome State Fault Refusal := .next (s.complete (rxClearEffect s.block))

/-- The meaning of STATUS (R106). -/
def execStatus (s : State) : Host.Outcome State Fault Refusal := .next (s.complete (statusEffect s.block))

end Sys2Proof.Machine
end

