-- ==== Sys2Proof/Machine/RxExtract.lean ====
section
/-! DEFINITION. The Frame Decoder / Reassembler (spec/43_rx_extract.md): the extraction function and the meanings of
RX.EXTRACT and RX.VALID. A cursor of the rules is the list that remains from it on. -/

namespace Sys2Proof.Machine

/-- Step 2, the literal search (R117): the least index of a `10 03` pair. It has no escape awareness (R127). -/
def findPair : List Byte → Option Nat
  | b :: c :: rest =>
    if b = Config.esc ∧ c = Config.etx then some 0 else (findPair (c :: rest)).map (· + 1)
  | _ => none

/-- Step 3, the checksum scan (R119), with `m = p - i` bytes still before the pair and the list being `B[i ..]`: a 0x10
directly followed by a 0x10 is one logical byte; the look-ahead may read the pair's first byte. -/
def crcScan : Nat → Word → List Byte → Word
  | 0, c, _ => c
  | _ + 1, c, [] => c
  | _ + 1, c, [b] => fold c b
  | m + 1, c, b :: d :: rest =>
    if b = Config.esc ∧ d = Config.esc then crcScan (m - 1) (fold c b) rest
    else crcScan m (fold c b) (d :: rest)

/-- Step 5b, the payload copy over `B[s .. p)` (R121): the byte after a copied 0x10 is skipped, whatever it is. -/
def unstuff : List Byte → List Byte
  | [] => []
  | [b] => [b]
  | b :: d :: rest => if b = Config.esc then b :: unstuff rest else b :: unstuff (d :: rest)

/-- Steps 5a and 5b (R120, R121), for a buffer whose checksum is right and whose pair is at `p`. -/
def extractMessage (B : List Byte) (p : Nat) : Response :=
  let ts := byteAt B 4
  match typeSeqType ts with
  | none => .badType ts
  | some t =>
    let s := if ts = Config.esc then 6 else 5
    .okMessage { type := t, seq := typeSeqSeq ts, payload := unstuff (sublist B s p) }

/-- Steps 3, 4 and 5 (R119 to R121), for a buffer whose pair is at `p`. -/
def extractAt (B : List Byte) (p : Nat) : Response :=
  let computed := crcScan (p - 3) Config.crcInit (B.drop 3)
  let expected := bigEndian (byteAt B (p + 2)) (byteAt B (p + 3))
  if computed ≠ expected then .corrupt computed expected else extractMessage B p

/-- `extract(B)` (R116 to R121, in that order; R129): NOFRAME, CORRUPT, BADTYPE or OK with a Message. -/
def extract (B : List Byte) : Response :=
  if B.length < Config.minFrame then .noFrame
  else if B.take 3 ≠ Config.preamble then .noFrame
  else
    match findPair B with
    | none => .noFrame
    | some p =>
      if p + 4 > B.length then .noFrame
      else if p < 5 then .noFrame
      else extractAt B p

/-- The buffer after an extraction that answered `r` (R123): cleared on OK with consume, else untouched. -/
def consumeOn (consume : Bool) (r : Response) (b : Block) : Block :=
  if consume && r.status == .ok then b.clearRx else b

/-- RX.EXTRACT c (R115); none if `rx_buf[0 .. rx_len)` holds no value somewhere (log 5). -/
def rxExtractEffect (consume : Bool) (b : Block) : Option (Block × Response) :=
  b.rxBytes.map fun B => (consumeOn consume (extract B) b, extract B)

/-- RX.VALID (R124): always OK, no state written; none as for RX.EXTRACT. -/
def rxValidEffect (b : Block) : Option (Block × Response) :=
  b.rxBytes.map fun B => (b, .okValid ((extract B).status == .ok))

/-- A command that reads the buffer: it ends with its response, or faults where the buffer holds no value (log 5). -/
def State.completeRead (s : State) (e : Option (Block × Response)) : Host.Outcome State Fault Refusal :=
  match e with
  | some e => .next (s.complete e)
  | none => .fault .rxBufNoValue

/-- The meaning of RX.EXTRACT (R115 to R123). -/
def execRxExtract (consume : Bool) (s : State) : Host.Outcome State Fault Refusal :=
  s.completeRead (rxExtractEffect consume s.block)

/-- The meaning of RX.VALID (R124). -/
def execRxValid (s : State) : Host.Outcome State Fault Refusal := s.completeRead (rxValidEffect s.block)

end Sys2Proof.Machine
end

