-- ==== Sys2Proof/Machine/TypeSeq.lean ====
section
/-! DEFINITION. The four TYPESEQ rows (spec/30_encoding.md R51, R52). A typeSeq byte is an operand encoding, no command of
the block: the one thing the spec gives it is assembly from and disassembly into (type, sequence). Offered alone it is
disassembled, and no state of the block or of the environment changes (log 7). -/

namespace Sys2Proof.Machine

/-- The meaning of TYPESEQ.acknowledge: type 0, sequence bits 2:0 (R51). -/
def execTypeSeqAcknowledge (sq : BitVec 3) (s : State) : Host.Outcome State Fault Refusal :=
  .next (s.readTypeSeq .acknowledge sq)

/-- The meaning of TYPESEQ.disconnect: type 1, sequence bits 2:0 (R51). -/
def execTypeSeqDisconnect (sq : BitVec 3) (s : State) : Host.Outcome State Fault Refusal :=
  .next (s.readTypeSeq .disconnect sq)

/-- The meaning of TYPESEQ.linkRequest: type 2, sequence bits 2:0 (R51). -/
def execTypeSeqLinkRequest (sq : BitVec 3) (s : State) : Host.Outcome State Fault Refusal :=
  .next (s.readTypeSeq .linkRequest sq)

/-- The meaning of TYPESEQ.data: type 3, sequence bits 2:0 (R51). -/
def execTypeSeqData (sq : BitVec 3) (s : State) : Host.Outcome State Fault Refusal :=
  .next (s.readTypeSeq .data sq)

end Sys2Proof.Machine
end

