-- ==== Sys2Proof/Machine/Dispatch.lean ====
section
/-! DEFINITION. The dispatch: one arm per constructor of Instr. -/

namespace Sys2Proof.Machine

def exec (i : Instr) (s : State) : Host.Outcome State Fault Refusal :=
  match i with
  | .crcClr => Sys2Proof.Machine.execCrcClr s
  | .crcFold b => Sys2Proof.Machine.execCrcFold b s
  | .crcRd => Sys2Proof.Machine.execCrcRd s
  | .encStart t sq => Sys2Proof.Machine.execEncStart t sq s
  | .encData b => Sys2Proof.Machine.execEncData b s
  | .encEnd => Sys2Proof.Machine.execEncEnd s
  | .rxPush bytes => Sys2Proof.Machine.execRxPush bytes s
  | .rxExtract consume => Sys2Proof.Machine.execRxExtract consume s
  | .rxValid => Sys2Proof.Machine.execRxValid s
  | .rxClear => Sys2Proof.Machine.execRxClear s
  | .status => Sys2Proof.Machine.execStatus s
  | .typeSeqAcknowledge sq => Sys2Proof.Machine.execTypeSeqAcknowledge sq s
  | .typeSeqDisconnect sq => Sys2Proof.Machine.execTypeSeqDisconnect sq s
  | .typeSeqLinkRequest sq => Sys2Proof.Machine.execTypeSeqLinkRequest sq s
  | .typeSeqData sq => Sys2Proof.Machine.execTypeSeqData sq s

end Sys2Proof.Machine
end

