-- ==== Sys2Proof/Machine/Pseudo.lean ====
section
/-! DEFINITION. The pseudo-instructions (spec/30_encoding.md R64, 42_rx_buffer.md R107): the source's own whole operations,
performed by the block's commands. -/

namespace Sys2Proof.Machine

/-- Commands in issue order, each to completion (spec/20_memory.md R38). -/
def execAll : List Instr → State → Host.Outcome State Fault Refusal
  | [], s => .next s
  | i :: is, s =>
    match exec i s with
    | .next t => execAll is t
    | .fault f => .fault f
    | .refused r => .refused r

/-- The expansion column of R64. DELIVER's second command is executed only if the first answers OK: see `deliver`. -/
def expandPseudo : Pseudo → List Instr
  | .checksum bytes => .crcClr :: (bytes.map .crcFold ++ [.crcRd])
  | .encode t sq payload => .encStart t sq :: (payload.map .encData ++ [.encEnd])
  | .deliver bytes => [.rxPush bytes, .rxExtract true]
  | .probe => [.rxValid]
  | .discard => [.rxClear]

/-- `DELIVER [b0 .. b(n-1)]` with its result, the response of the last command executed (R107): no extraction is
attempted after an overrun. -/
def deliver (bytes : List Byte) (s : State) : Host.Outcome (State × Response) Fault Refusal :=
  let pushed := rxPushEffect bytes s.block
  let s := s.complete pushed
  if pushed.2.status = .overrun then .next (s, pushed.2)
  else
    match rxExtractEffect true s.block with
    | some e => .next (s.complete e, e.2)
    | none => .fault .rxBufNoValue

/-- A pseudo-instruction performed on the block (R64). -/
def execPseudo (p : Pseudo) (s : State) : Host.Outcome State Fault Refusal :=
  match p with
  | .deliver bytes =>
    match deliver bytes s with
    | .next (t, _) => .next t
    | .fault f => .fault f
    | .refused r => .refused r
  | .checksum _ | .encode _ _ _ | .probe | .discard => execAll (expandPseudo p) s

/-- `ENCODE t, s, payload` performed command by command, and the bytes it appends to `tx_out` (R64, R89). -/
def encodeOnBlock (t : PacketType) (sq : BitVec 3) (payload : List Byte) (s : State) : State × List Byte :=
  let started := s.complete (encStartEffect t sq s.block)
  let filled := payload.foldl (fun s b => s.complete (encDataEffect b s.block)) started
  let ended := filled.complete (encEndEffect filled.block)
  (ended, ended.block.txOut.drop s.block.txOut.length)

end Sys2Proof.Machine
end

