-- ==== Sys2Proof/Machine/Session.lean ====
section
/-! DEFINITION. The environment (spec/44_link_session_environment.md): the Link Session's handlers, the keepalive and the
transport, as event handlers that issue the block's commands. One handler runs at a time, to completion (R140, R173); an
error status inside one ends nothing (R173). -/

namespace Sys2Proof.Machine

/-- The sequence number a successful `send` encodes (R142): pre-incremented for `data`, 0 for every other type. -/
def sendSeq (t : PacketType) (env : Env) : BitVec 3 := if t = .data then env.seqCtr + 1 else 0

/-- `seq_ctr` after a successful `send` (R142): advanced, modulo 8, for `data` only. -/
def sendCtr (t : PacketType) (env : Env) : BitVec 3 := if t = .data then env.seqCtr + 1 else env.seqCtr

/-- `send(type, payload) -> bool` (R141): a test-and-set of `busy`, then one frame and one write request. -/
def send (t : PacketType) (payload : List Byte) (s : State) : State × Bool :=
  if s.env.busy then (s, false)
  else
    let sq := sendSeq t s.env
    let s := { s with env := { s.env with busy := true, seqCtr := sendCtr t s.env } }
    let (s, frame) := encodeOnBlock t sq payload s
    let s := { s with env := { s.env with outstanding := frame.length } }
    (s.output (.write frame), true)

/-- The host calls `send` and gets its answer (R141, R154). -/
def handleSend (t : PacketType) (payload : List Byte) (s : State) : State :=
  let (s, ok) := send t payload s
  s.output (.sendResult ok)

/-- Write completed (R143): `outstanding` saturates at 0, and reaching 0 releases `busy`. -/
def handleCompletion (k : Nat) (s : State) : State :=
  let left := s.env.outstanding - k
  let env := { s.env with outstanding := left, busy := if left = 0 then false else s.env.busy }
  let s' := { s with env := env }
  if k > s.env.outstanding then s'.output (.diagnostic .writeOverrun) else s'

/-- Bytes reach the transport in order and are unread until read (R149). -/
def handleArrive (bytes : List Byte) (s : State) : State :=
  { s with env := { s.env with unread := s.env.unread ++ bytes } }

/-- The end of the data-available handler, on DELIVER's response (R144, R148): a Message goes to the host and disarms the
timer, an overrun is reported, any other status does nothing more. -/
def onDelivered (s : State) (r : Response) : State :=
  match r with
  | .okMessage m => { s with env := { s.env with inactArmed := false } }.output (.packetReceived m)
  | .overrun => s.output .overrun
  | .ok | .okValue _ | .okValid _ | .noFrame | .corrupt _ _ | .badType _ | .badCmd => s

/-- Data available (R144): the chunk read, the short-read warning (R145), the timer re-armed, then DELIVER. The event is
pending only while the transport holds unread bytes (R172); offered while it holds none, or while none is read, the handler
runs all the same, with an empty chunk: the model's choice (log 21). -/
def handleDataAvailable (advertised count : Nat) (s : State) : Host.Outcome State Fault Refusal :=
  let chunk := s.env.unread.take count
  let s := { s with env := { s.env with unread := s.env.unread.drop count, inactArmed := true } }
  let s := if chunk.length < advertised then s.output (.diagnostic .shortRead) else s
  match deliver chunk s with
  | .next (s, r) => .next (onDelivered s r)
  | .fault f => .fault f
  | .refused r => .refused r

/-- Inactivity elapsed (R146): only while armed; the buffer is discarded and the transport drained (R147). -/
def handleInactivity (s : State) : Host.Outcome State Fault Refusal :=
  if s.env.inactArmed then
    let s := { s with env := { s.env with inactArmed := false } }
    let s := s.complete (rxClearEffect s.block)
    .next { s with env := { s.env with unread := [] } }
  else .refused .inactivityNotArmed

/-- Keepalive tick (R150): a linkRequest is attempted if not connected and no queue entries exist; a busy link is logged. -/
def handleKeepalive (s : State) : State :=
  if s.env.connected = false ∧ s.env.sendQueue = [] then
    let (s, ok) := send .linkRequest [] s
    if ok then s else s.output (.diagnostic .linkBusy)
  else s

/-- One event of the environment (R140). A change of transport has no step (R155). -/
def handleEvent (e : Event) (s : State) : Host.Outcome State Fault Refusal :=
  match e with
  | .send t payload => .next (handleSend t payload s)
  | .completion k => .next (handleCompletion k s)
  | .arrive bytes => .next (handleArrive bytes s)
  | .dataAvailable advertised count => handleDataAvailable advertised count s
  | .inactivityElapsed => handleInactivity s
  | .keepaliveTick => .next (handleKeepalive s)
  | .repoint => .refused .transportRepointed

end Sys2Proof.Machine
end

