-- ==== Sys2Proof/Machine/Port.lean ====
section
/-! DEFINITION. What one step does with the next pending input (spec/10_state.md R19, 20_memory.md R38): a command word is
decoded and executed, an event is handled, a reset resets the block. A reset, a taking from `tx_out` and bytes on `rx_in`
also reach the block while a command waits for its data. Also where a step's next instruction is placed. -/

namespace Sys2Proof.Machine

/-- The state with the first pending input taken. -/
def State.popInput (s : State) : State :=
  { s with ports := { s.ports with inputs := s.ports.inputs.tail } }

/-- The state with the bytes pending on `rx_in` replaced by those the decoder left (R61). -/
def State.withRxIn (s : State) (rest : List Byte) : State := { s with ports := { s.ports with rxIn := rest } }

/-- The block's answer to a reserved word: BADCMD, nothing changes (R60, R169). -/
def badCmdEffect (b : Block) : Block × Response := (b, .badCmd)

/-- The state with other inputs pending. -/
def State.withInputs (s : State) (inputs : List Input) : State :=
  { s with ports := { s.ports with inputs := inputs } }

/-! ## Signals -/

/-- The environment takes a prefix of `tx_out` (R20). -/
def takeTx (n : Nat) (s : State) : State :=
  { s with
      block := { s.block with txOut := s.block.txOut.drop n }
      ports := { s.ports with txTaken := s.ports.txTaken ++ s.block.txOut.take n } }

/-- Reset of the block (R190): every piece of block state at its value of R25; the bytes already on `tx_out` are the
environment's, not recalled (log 6); the environment keeps its state (R155, log 19). The ports are no block state, so the
bytes pending on `rx_in` and the inputs behind the reset stay pending: the model's choice (log 22). -/
def resetBlock (s : State) : State := { takeTx s.block.txOut.length s with block := .reset }

/-- Bytes offered on `rx_in`, in arrival order (R19). -/
def offerRx (bytes : List Byte) (s : State) : State := s.withRxIn (s.ports.rxIn ++ bytes)

/-- What a signal does. -/
def signalEffect : Signal → State → State
  | .reset, s => resetBlock s
  | .takeTx n, s => takeTx n s
  | .rxIn bytes, s => offerRx bytes s

/-- The first signal among pending inputs, and the others in their order. -/
def firstSignal : List Input → Option (Signal × List Input)
  | [] => none
  | .signal g :: is => some (g, is)
  | .cmd w :: is => (firstSignal is).map fun p => (p.1, .cmd w :: p.2)
  | .typeSeq b :: is => (firstSignal is).map fun p => (p.1, .typeSeq b :: p.2)
  | .event e :: is => (firstSignal is).map fun p => (p.1, .event e :: p.2)

/-! ## The inputs -/

/-- What a signal acts on while the RX.PUSH word `w` waits for its bytes, `rest` being the other inputs behind it. A reset
abandons the push and the part of its delivery that has arrived ("a frame in progress on either side is abandoned", R190;
log 22); any other signal leaves it waiting. -/
def State.whileWaiting (s : State) (w : Word) (rest : List Input) : Signal → State
  | .reset => (s.withInputs rest).withRxIn []
  | .takeTx _ => s.withInputs (.cmd w :: rest)
  | .rxIn _ => s.withInputs (.cmd w :: rest)

/-- An RX.PUSH whose bytes are not all on `rx_in` waits (log 3): of the inputs behind it only a signal is taken, since
commands and events are strictly one after the other (R38) and a signal may come at any time (R20, R61, R190). -/
def stepWaiting (w : Word) (inputs : List Input) (s : State) : Host.Outcome State Fault Refusal :=
  match firstSignal inputs with
  | some (g, rest) => .next (signalEffect g (s.whileWaiting w rest g))
  | none => .next s

/-- A word on `cmd` (R58 to R61), `inputs` being what is pending behind it. -/
def stepCommand (w : Word) (inputs : List Input) (s : State) : Host.Outcome State Fault Refusal :=
  match decode w s.ports.rxIn with
  | .instr i rest => exec i (s.popInput.withRxIn rest)
  | .reserved _ => .next (s.popInput.complete (badCmdEffect s.block))
  | .starved _ => stepWaiting w inputs s

/-- A typeSeq byte offered alone (log 7); a reserved one is refused by name (R56, log 8). -/
def stepTypeSeq (b : Byte) (s : State) : Host.Outcome State Fault Refusal :=
  match decodeTypeSeq b with
  | some i => exec i s.popInput
  | none => .refused (.reservedTypeSeq b)

/-- One step: the next pending input, or nothing while none is pending (R182: "Between commands the block is idle and
holds its state indefinitely"). -/
def stepInput (s : State) : Host.Outcome State Fault Refusal :=
  match s.ports.inputs with
  | [] => .next s
  | .cmd w :: inputs => stepCommand w inputs s
  | .typeSeq b :: _ => stepTypeSeq b s
  | .event e :: _ => handleEvent e s.popInput
  | .signal g :: _ => .next (signalEffect g s.popInput)

/-- The state with an instruction, numbered as spec/opcode_table.json numbers its bits, as the next pending input, its
data bytes first on `rx_in` (log 2). -/
def placeWord (s : State) (nbits w : Nat) : State :=
  let v := w % 2 ^ nbits
  if nbits ≤ 8 then
    { s with ports := { s.ports with inputs := .typeSeq (BitVec.ofNat 8 v) :: s.ports.inputs } }
  else
    { s with
        ports :=
          { s.ports with
              inputs := .cmd (BitVec.ofNat 16 v) :: s.ports.inputs
              rxIn := tableDataBytes v ++ s.ports.rxIn } }

end Sys2Proof.Machine
end

