-- ==== Sys2Proof/Machine/Step.lean ====
section
/-! DEFINITION. The step, and where its next instruction is placed. -/

namespace Sys2Proof.Machine

/-- One step of the machine: the next pending input (Machine/Port.lean). -/
def step (s : State) : Host.Outcome State Fault Refusal := stepInput s

/-- `s` with the instruction of a table word as the input the next step takes (Machine/Port.lean, log 2). -/
def State.withFetchWord (s : State) (nbits w : Nat) : State := placeWord s nbits w

end Sys2Proof.Machine
end

