-- ==== Sys2Proof/Machine/Assembler.lean ====
section
/-! DEFINITION. The assembler syntax of spec/30_encoding.md R63, one command or pseudo-instruction (R64) a line:
`MNEMONIC operand, operand`, lists of bytes in square brackets, `;` to start a comment. -/

namespace Sys2Proof.Machine

/-! ## Reading a line -/

/-- The line without its comment (R63). -/
def stripComment (line : List Char) : List Char := line.takeWhile (· ≠ ';')

/-- A finished word, if there is one, before the tokens that follow it. -/
def flushWord (w : List Char) (rest : List Token) : List Token := if w = [] then rest else .word w :: rest

/-- The tokens of a line, `w` being the word read so far. -/
def lexFrom : List Char → List Char → List Token
  | w, [] => flushWord w []
  | w, c :: cs =>
    if c = ' ' ∨ c = '\t' then flushWord w (lexFrom [] cs)
    else if c = ',' then flushWord w (.comma :: lexFrom [] cs)
    else if c = '[' then flushWord w (.openBracket :: lexFrom [] cs)
    else if c = ']' then flushWord w (.closeBracket :: lexFrom [] cs)
    else lexFrom (w ++ [c]) cs

/-- The tokens of a line. -/
def lex (line : List Char) : List Token := lexFrom [] (stripComment line)

/-- The hexadecimal digits, each at the place of its value, as the spec writes them. -/
def hexDigits : List Char := "0123456789ABCDEF".toList

/-- The digits ten to fifteen in small letters, which are hexadecimal digits as well (R63). -/
def smallHexDigits : List Char := "abcdef".toList

/-- The value of a digit: its place among `hexDigits`, or ten more than its place among the small letters. -/
def hexDigit (c : Char) : Option Nat :=
  match hexDigits.findIdx? (· == c), smallHexDigits.findIdx? (· == c) with
  | some v, _ => some v
  | none, some k => some (10 + k)
  | none, none => none

/-- A byte operand: two hexadecimal digits, with or without `0x` (R63). -/
def parseByte : List Char → Option Byte
  | [h, l] =>
    match hexDigit h, hexDigit l with
    | some x, some y => some (BitVec.ofNat 8 (16 * x + y))
    | _, _ => none
  | ['0', 'x', h, l] => parseByte [h, l]
  | _ => none

/-- A `type` operand: a number 0 to 3 or one of the four names (R63). -/
def parseType (w : List Char) : Option PacketType :=
  if w = "0".toList ∨ w = "ack".toList then some .acknowledge
  else if w = "1".toList ∨ w = "disc".toList then some .disconnect
  else if w = "2".toList ∨ w = "linkreq".toList then some .linkRequest
  else if w = "3".toList ∨ w = "data".toList then some .data
  else none

/-- A `sequence` operand: a number 0 to 7. -/
def parseSeq : List Char → Option (BitVec 3)
  | [c] =>
    match hexDigit c with
    | some v => if v < 8 then some (BitVec.ofNat 3 v) else none
    | none => none
  | _ => none

/-- The `consume` operand of RX.EXTRACT: 0 or 1. -/
def parseBit : List Char → Option Bool
  | ['0'] => some false
  | ['1'] => some true
  | _ => none

/-- The bytes of a list up to its closing bracket, which ends the line. -/
def parseBytes : List Token → Option (List Byte)
  | [.closeBracket] => some []
  | .word w :: rest =>
    match parseByte w, parseBytes rest with
    | some b, some bs => some (b :: bs)
    | _, _ => none
  | _ => none

/-- A command without operands (R59, R64). -/
def parsePlain (m : List Char) : Option AsmLine :=
  if m = "CRC.CLR".toList then some (.instr .crcClr)
  else if m = "CRC.RD".toList then some (.instr .crcRd)
  else if m = "ENC.END".toList then some (.instr .encEnd)
  else if m = "RX.VALID".toList then some (.instr .rxValid)
  else if m = "RX.CLEAR".toList then some (.instr .rxClear)
  else if m = "STATUS".toList then some (.instr .status)
  else if m = "PROBE".toList then some (.pseudo .probe)
  else if m = "DISCARD".toList then some (.pseudo .discard)
  else none

/-- A command with one operand. -/
def parseOne (m w : List Char) : Option AsmLine :=
  if m = "CRC.FOLD".toList then (parseByte w).map fun b => .instr (.crcFold b)
  else if m = "ENC.DATA".toList then (parseByte w).map fun b => .instr (.encData b)
  else if m = "RX.EXTRACT".toList then (parseBit w).map fun c => .instr (.rxExtract c)
  else none

/-- ENC.START with its two operands. -/
def parseTwo (m t sq : List Char) : Option AsmLine :=
  if m = "ENC.START".toList then
    match parseType t, parseSeq sq with
    | some t, some sq => some (.instr (.encStart t sq))
    | _, _ => none
  else none

/-- A command with a list of bytes; `toks` starts after the opening bracket. -/
def parseList (m : List Char) (toks : List Token) : Option AsmLine :=
  if m = "RX.PUSH".toList then (parseBytes toks).map fun bs => .instr (.rxPush bs)
  else if m = "CHECKSUM".toList then (parseBytes toks).map fun bs => .pseudo (.checksum bs)
  else if m = "DELIVER".toList then (parseBytes toks).map fun bs => .pseudo (.deliver bs)
  else none

/-- ENCODE with its three operands; `toks` starts after the opening bracket. -/
def parseEncode (m t sq : List Char) (toks : List Token) : Option AsmLine :=
  if m = "ENCODE".toList then
    match parseType t, parseSeq sq, parseBytes toks with
    | some t, some sq, some bs => some (.pseudo (.encode t sq bs))
    | _, _, _ => none
  else none

/-- A line of tokens; none if it is no line of R63. -/
def parseTokens : List Token → Option AsmLine
  | [] => some .blank
  | [.word m] => parsePlain m
  | [.word m, .word w] => parseOne m w
  | [.word m, .word t, .comma, .word sq] => parseTwo m t sq
  | .word m :: .openBracket :: toks => parseList m toks
  | .word m :: .word t :: .comma :: .word sq :: .comma :: .openBracket :: toks => parseEncode m t sq toks
  | _ => none

/-- The assembler: one line to the command or pseudo-instruction it stands for (R63). -/
def assemble (line : List Char) : Option AsmLine := parseTokens (lex line)

/-! ## Writing a line -/

/-- The digit of a value below sixteen, in capitals. -/
def digitChar (v : Nat) : Char := hexDigits.getD v '0'

/-- A byte operand (R63). -/
def showByte (b : Byte) : List Char := [digitChar (b.toNat / 16), digitChar (b.toNat % 16)]

/-- A list of bytes separated by spaces, and its closing bracket (R63). -/
def showBytes : List Byte → List Char
  | [] => [']']
  | [b] => showByte b ++ [']']
  | b :: c :: bs => showByte b ++ ' ' :: showBytes (c :: bs)

/-- A `type` operand by its name (R63). -/
def showType : PacketType → List Char
  | .acknowledge => "ack".toList
  | .disconnect => "disc".toList
  | .linkRequest => "linkreq".toList
  | .data => "data".toList

/-- A `sequence` operand. -/
def showSeq (sq : BitVec 3) : List Char := [digitChar sq.toNat]

/-- The line of a command (R63); none for a typeSeq byte, which is no command. -/
def showInstr : Instr → Option (List Char)
  | .crcClr => some "CRC.CLR".toList
  | .crcFold b => some ("CRC.FOLD ".toList ++ showByte b)
  | .crcRd => some "CRC.RD".toList
  | .encStart t sq => some ("ENC.START ".toList ++ showType t ++ ", ".toList ++ showSeq sq)
  | .encData b => some ("ENC.DATA ".toList ++ showByte b)
  | .encEnd => some "ENC.END".toList
  | .rxPush bs => some ("RX.PUSH [".toList ++ showBytes bs)
  | .rxExtract c => some ("RX.EXTRACT ".toList ++ [if c then '1' else '0'])
  | .rxValid => some "RX.VALID".toList
  | .rxClear => some "RX.CLEAR".toList
  | .status => some "STATUS".toList
  | .typeSeqAcknowledge _ => none
  | .typeSeqDisconnect _ => none
  | .typeSeqLinkRequest _ => none
  | .typeSeqData _ => none

/-- The line of a pseudo-instruction (R64). -/
def showPseudo : Pseudo → List Char
  | .checksum bs => "CHECKSUM [".toList ++ showBytes bs
  | .encode t sq bs => "ENCODE ".toList ++ showType t ++ ", ".toList ++ showSeq sq ++ ", [".toList ++ showBytes bs
  | .deliver bs => "DELIVER [".toList ++ showBytes bs
  | .probe => "PROBE".toList
  | .discard => "DISCARD".toList

end Sys2Proof.Machine
end

