-- ==== Sys2Proof/Safety.lean ====
section
/-! DEFINITION. What the statements speak of beside the machine: the invariants of spec/10_state.md R26 and
44_link_session_environment.md R141 to R152 as predicates of one state, runs of commands, deliveries and events, and the extraction once more as R129 lists it. -/

namespace Sys2Proof.Machine

/-! ## Invariants -/

/-- R26 (a), R18: `rx_len` is at most 512, `rx_buf` is in its canonical form, and it holds a value at exactly the offsets
below `rx_len`. -/
structure RxInv (b : Block) : Prop where
  len_le : b.rxLen.toNat ≤ Config.maxFrame
  wf : b.rxBuf.wf = true
  defined : ∀ a, (b.rxBuf.read a).isSome = true ↔ a < b.rxLen.toNat

/-- The bytes of a frame in progress whose logical bytes are channel, `ts`, `payload` (R45): no postamble yet. -/
def openFrame (ts : Byte) (payload : List Byte) : List Byte :=
  Config.preamble ++ stuffAll (Config.channel :: ts :: payload)

/-- R26 (c), (d) in one state: in `BODY` the bytes emitted so far end with the frame in progress, and `tx_crc` is the
checksum of its logical bytes. -/
def TxInv (s : State) : Prop :=
  s.block.encPhase = .body →
    ∃ (before : List Byte) (t : PacketType) (sq : BitVec 3) (payload : List Byte),
      s.ports.txTaken ++ s.block.txOut = before ++ openFrame (typeSeqByte t sq) payload ∧
      s.block.txCrc = checksum (logicalBytes t sq payload)

/-- The environment's bookkeeping: `busy` exactly while bytes are outstanding (R141, R143), never connected (R151), the
queue always empty (R152). -/
structure EnvInv (e : Env) : Prop where
  busy_iff : e.busy = true ↔ 0 < e.outstanding
  connected : e.connected = false
  queue : e.sendQueue = []

/-- The invariant of the machine. -/
structure State.Inv (s : State) : Prop where
  rx : RxInv s.block
  tx : TxInv s
  env : EnvInv s.env

/-! ## Runs -/

/-- Deliveries in order, each by DELIVER with nothing else in between (R109), with their responses. -/
def deliverAll : List (List Byte) → State → Host.Outcome (State × List Response) Fault Refusal
  | [], s => .next (s, [])
  | c :: cs, s =>
    match deliver c s with
    | .fault f => .fault f
    | .refused r => .refused r
    | .next (t, r) =>
      match deliverAll cs t with
      | .fault f => .fault f
      | .refused r => .refused r
      | .next (u, rs) => .next (u, r :: rs)

/-- Events of the environment in order, each handler to completion (R140). -/
def handleAll : List Event → State → Host.Outcome State Fault Refusal
  | [], s => .next s
  | e :: es, s =>
    match handleEvent e s with
    | .next t => handleAll es t
    | .fault f => .fault f
    | .refused r => .refused r

/-- The bytes the completions among some events report written (R143). -/
def completedBytes : List Event → Nat
  | [] => 0
  | .completion k :: es => k + completedBytes es
  | .send _ _ :: es => completedBytes es
  | .arrive _ :: es => completedBytes es
  | .dataAvailable _ _ :: es => completedBytes es
  | .inactivityElapsed :: es => completedBytes es
  | .keepaliveTick :: es => completedBytes es
  | .repoint :: es => completedBytes es

/-- The frames among some outputs that were given to the transport (R141). -/
def writtenFrames (outs : List HostOutput) : List (List Byte) :=
  outs.filterMap fun o => match o with
    | .write f => some f
    | .sendResult _ | .packetReceived _ | .overrun | .diagnostic _ => none

/-- The response carries a Message: RX.EXTRACT's OK (R62). -/
def isMessage : Response → Bool
  | .okMessage _ => true
  | .ok => false
  | .okValue _ => false
  | .okValid _ => false
  | .noFrame => false
  | .corrupt _ _ => false
  | .overrun => false
  | .badType _ => false
  | .badCmd => false

/-- An ENC.* command (R59). -/
def isEnc : Instr → Bool
  | .encStart _ _ => true
  | .encData _ => true
  | .encEnd => true
  | .crcClr => false
  | .crcFold _ => false
  | .crcRd => false
  | .rxPush _ => false
  | .rxExtract _ => false
  | .rxValid => false
  | .rxClear => false
  | .status => false
  | .typeSeqAcknowledge _ => false
  | .typeSeqDisconnect _ => false
  | .typeSeqLinkRequest _ => false
  | .typeSeqData _ => false

/-- A row of the table that is a command of the block, not a typeSeq byte (R51, R59). -/
def isCommand : Instr → Bool
  | .typeSeqAcknowledge _ => false
  | .typeSeqDisconnect _ => false
  | .typeSeqLinkRequest _ => false
  | .typeSeqData _ => false
  | .crcClr => true
  | .crcFold _ => true
  | .crcRd => true
  | .encStart _ _ => true
  | .encData _ => true
  | .encEnd => true
  | .rxPush _ => true
  | .rxExtract _ => true
  | .rxValid => true
  | .rxClear => true
  | .status => true

/-- A logical 0x10 directly followed by a logical 0x03: what makes a frame undecodable (R126, R200). -/
def hasPair (l : List Byte) : Bool := (findPair l).isSome

/-! ## The extraction as R129 lists it, with cursors

The machine's `extract` walks lists. This is R116 to R121 once more, word for word over indices, to be proved equal. -/

/-- "the least k with 0 <= k <= n - 2, B[k] = 0x10 and B[k+1] = 0x03" (R117). -/
def leastPair (B : List Byte) : Option Nat :=
  (List.range (B.length - 1)).find? fun k => byteAt B k == 0x10 && byteAt B (k + 1) == 0x03

/-- `while i < p: c <- fold(c, B[i]) …` (R119); `fuel` bounds the turns. -/
def scanLoop (B : List Byte) (p : Nat) : Nat → Nat → Word → Word
  | 0, _, c => c
  | fuel + 1, i, c =>
    if i < p then
      scanLoop B p fuel (if byteAt B i = 0x10 ∧ byteAt B (i + 1) = 0x10 then i + 2 else i + 1) (fold c (byteAt B i))
    else c

/-- `while j < p: payload <- payload ++ [B[j]] …` (R121); `fuel` bounds the turns. -/
def copyLoop (B : List Byte) (p : Nat) : Nat → Nat → List Byte → List Byte
  | 0, _, out => out
  | fuel + 1, j, out =>
    if j < p then copyLoop B p fuel (if byteAt B j = 0x10 then j + 2 else j + 1) (out ++ [byteAt B j]) else out

/-- `extract(B)` as the listing of R129 has it. -/
def extractListing (B : List Byte) : Response :=
  let n := B.length
  if n < 9 then .noFrame
  else if byteAt B 0 ≠ 0x16 ∨ byteAt B 1 ≠ 0x10 ∨ byteAt B 2 ≠ 0x02 then .noFrame
  else
    match leastPair B with
    | none => .noFrame
    | some p =>
      if p + 4 > n then .noFrame
      else if p < 5 then .noFrame
      else
        let c := scanLoop B p p 3 0x0000
        let e := ((byteAt B (p + 2)).setWidth 16 <<< 8) ||| (byteAt B (p + 3)).setWidth 16
        if c ≠ e then .corrupt c e
        else
          let ts := byteAt B 4
          if ts >>> 3 > 3 then .badType ts
          else
            let s := if ts = 0x10 then 6 else 5
            .okMessage
              { type := .ofBits ((ts >>> 3).setWidth 2), seq := (ts &&& 0x7).setWidth 3, payload := copyLoop B p p s [] }

end Sys2Proof.Machine
end

