-- ==== Sys2Proof/Certificates/Slice0/Obligations.lean ====
section
/-! DEFINITION. The statements for the provers. Each docstring names the rule of spec/ it formalises, or says that it is
derived or the model's own choice. -/

open Sys2Proof Sys2Proof.Machine

/-! ## Encodings -/

/-- Words written out from R59 and bytes from R51 decode to the instructions they stand for (sanity, derived). -/
def Obligations.TableWordsDecode : Prop :=
  decode 0x1000 [] = .instr .crcClr [] ∧
  decode 0x2010 [] = .instr (.crcFold 0x10) [] ∧
  decode 0x3000 [] = .instr .crcRd [] ∧
  decode 0x4010 [] = .instr (.encStart .linkRequest 0) [] ∧
  decode 0x4019 [] = .instr (.encStart .data 1) [] ∧
  decode 0x5046 [] = .instr (.encData 0x46) [] ∧
  decode 0x6000 [] = .instr .encEnd [] ∧
  decode 0x8002 [0x01, 0x19, 0xFF] = .instr (.rxPush [0x01, 0x19]) [0xFF] ∧
  decode 0x9000 [] = .instr (.rxExtract false) [] ∧
  decode 0x9001 [] = .instr (.rxExtract true) [] ∧
  decode 0xA000 [] = .instr .rxValid [] ∧
  decode 0xB000 [] = .instr .rxClear [] ∧
  decode 0xC000 [] = .instr .status [] ∧
  decodeTypeSeq 0x07 = some (.typeSeqAcknowledge 7) ∧
  decodeTypeSeq 0x08 = some (.typeSeqDisconnect 0) ∧
  decodeTypeSeq 0x10 = some (.typeSeqLinkRequest 0) ∧
  decodeTypeSeq 0x19 = some (.typeSeqData 1)

/-- Every well-formed instruction is read back from its encoding, whatever is pending behind it on `rx_in` (derived from
R51, R59, R61). -/
def Obligations.DecodeOfEncode : Prop :=
  ∀ i : Instr, i.WellFormed → ∀ pending : List Byte, decodeEncoded (encode i) pending = some (i, pending)

/-- The other direction: what decodes is well-formed and encodes to the very word and data bytes read (derived). -/
def Obligations.EncodeOfDecode : Prop :=
  (∀ (w : Word) (rxIn : List Byte) (i : Instr) (rest : List Byte), decode w rxIn = .instr i rest →
    i.WellFormed ∧ ∃ data, encode i = .cmd w data ∧ rxIn = data ++ rest) ∧
  (∀ (b : Byte) (i : Instr), decodeTypeSeq b = some i → i.WellFormed ∧ encode i = .typeSeq b)

/-- R60: the reserved words are exactly those that match no row, that is those with a reserved op, with z not 0, or with
a reserved arg bit; such a word is answered BADCMD and changes no state. -/
def Obligations.ReservedWordsAnswerBadCmd : Prop :=
  (∀ (w : Word) (rxIn : List Byte),
    ((∃ why, decode w rxIn = .reserved why) ↔ ∀ r ∈ opTable, w &&& r.mask ≠ r.pattern) ∧
    ((∃ why, decode w rxIn = .reserved why) ↔
      opField w ∈ ([0x0, 0x7, 0xD, 0xE, 0xF] : List (BitVec 4)) ∨ zField w ≠ 0 ∨
      (opField w ∈ ([0x1, 0x3, 0x6, 0xA, 0xB, 0xC] : List (BitVec 4)) ∧ argField w ≠ 0) ∨
      (opField w ∈ ([0x2, 0x5] : List (BitVec 4)) ∧ (argField w).extractLsb' 8 2 ≠ 0) ∨
      (opField w = 0x4 ∧ (argField w).extractLsb' 5 5 ≠ 0) ∨
      (opField w = 0x9 ∧ (argField w).extractLsb' 1 9 ≠ 0))) ∧
  (∃ why, decode 0x0000 [] = .reserved why) ∧
  (∀ (s : State) (w : Word) (inputs : List Input) (why : ReservedWord), s.ports.inputs = .cmd w :: inputs →
    decode w s.ports.rxIn = .reserved why →
    step s = .next { s with ports := { s.ports with inputs := inputs, resp := s.ports.resp ++ [.badCmd] } })

/-- R51: assembly of the typeSeq byte on encode, disassembly of the byte at buffer offset 4 on decode; the reserved bytes
0x20 to 0xFF have no type. -/
def Obligations.TypeSeqLayout : Prop :=
  (∀ (t : PacketType) (sq : BitVec 3),
    (typeSeqByte t sq).extractLsb' 5 3 = 0 ∧ (typeSeqByte t sq).extractLsb' 3 2 = t.bits ∧
    (typeSeqByte t sq).extractLsb' 0 3 = sq ∧ (typeSeqByte t sq).toNat = 8 * t.bits.toNat + sq.toNat ∧
    typeSeqType (typeSeqByte t sq) = some t ∧ typeSeqSeq (typeSeqByte t sq) = sq) ∧
  (∀ b : Byte, (typeSeqSeq b).toNat = b.toNat % 8 ∧
    (∀ t, typeSeqType b = some t → t.bits.toNat = b.toNat / 8) ∧ (typeSeqType b = none ↔ 0x20 ≤ b.toNat)) ∧
  (∀ (B : List Byte) (m : Message), extract B = .okMessage m →
    ∃ b, B[4]? = some b ∧ typeSeqType b = some m.type ∧ typeSeqSeq b = m.seq) ∧
  (PacketType.acknowledge.bits = 0 ∧ PacketType.disconnect.bits = 1 ∧ PacketType.linkRequest.bits = 2 ∧
    PacketType.data.bits = 3)

/-- The assembler reads back every line the printer writes, for every command and every pseudo-instruction of R63, R64
(derived); the example line of R63 assembles to the word 0x4019. -/
def Obligations.AssembleShownLine : Prop :=
  (∀ i : Instr, isCommand i = true → ∃ line, showInstr i = some line ∧ assemble line = some (.instr i)) ∧
  (∀ p : Pseudo, assemble (showPseudo p) = some (.pseudo p)) ∧
  assemble "ENC.START data, 1 ; word 0x4019".toList = some (.instr (.encStart .data 1)) ∧
  encode (.encStart .data 1) = .cmd 0x4019 []

/-! ## The step -/

/-- A step runs the decoded instruction: it takes the word off `cmd` and the instruction's data bytes off `rx_in`, and is
exec on what is left. That a typeSeq byte can be offered alone, and is then run in the same way, is the model's choice
(log 7). -/
def Obligations.StepRunsDecodedInstruction : Prop :=
  (∀ (s : State) (w : Word) (inputs : List Input) (i : Instr) (rest : List Byte),
    s.ports.inputs = .cmd w :: inputs → decode w s.ports.rxIn = .instr i rest →
    step s = exec i { s with ports := { s.ports with inputs := inputs, rxIn := rest } }) ∧
  (∀ (s : State) (b : Byte) (inputs : List Input) (i : Instr),
    s.ports.inputs = .typeSeq b :: inputs → decodeTypeSeq b = some i →
    step s = exec i { s with ports := { s.ports with inputs := inputs } })

/-- Nothing pending: the block is idle and holds its state (R182). A push whose bytes have not all arrived waits, the
commands and events behind it too: the model's choice (log 3). Of the inputs behind it the first signal is taken: a reset,
which "can be applied at any time" (R190); a taking of the first bytes of `tx_out` (R20, "at any time"); or further bytes
on `rx_in`, behind those there. The model's own choices about that reset: it abandons the push and the bytes that had
arrived, and the other inputs stay (log 22); the bytes on `tx_out` pass to the environment (log 6), which keeps its state
(log 19). -/
def Obligations.StepHoldsStateWhileWaiting : Prop :=
  (∀ s : State, s.ports.inputs = [] → step s = .next s) ∧
  (∀ (s : State) (w : Word) (inputs : List Input) (n : Nat), s.ports.inputs = .cmd w :: inputs →
    (∀ g, .signal g ∉ inputs) → decode w s.ports.rxIn = .starved n → step s = .next s) ∧
  (∀ (s : State) (w : Word) (before after : List Input) (g : Signal) (n : Nat),
    s.ports.inputs = .cmd w :: (before ++ .signal g :: after) → (∀ g', .signal g' ∉ before) →
    decode w s.ports.rxIn = .starved n →
    step s = .next (match g with
      | .reset =>
        { s with
          block := State.reset.block
          ports := { s.ports with
            inputs := before ++ after, rxIn := [], txTaken := s.ports.txTaken ++ s.block.txOut } }
      | .takeTx k =>
        { s with
          block := { s.block with txOut := s.block.txOut.drop k }
          ports := { s.ports with
            inputs := .cmd w :: (before ++ after), txTaken := s.ports.txTaken ++ s.block.txOut.take k } }
      | .rxIn bytes =>
        { s with
          ports := { s.ports with inputs := .cmd w :: (before ++ after), rxIn := s.ports.rxIn ++ bytes } }))

/-- The other inputs. An event runs its handler; bytes that arrive at the transport become unread behind those already
unread, in order (R149), and nothing else changes; a reset puts every piece of block state at its value of R25 (R190); the
environment may take a prefix of `tx_out` (R20); bytes offered on `rx_in` come behind those there (R19). The model's own
choices among them: the bytes on `tx_out` at a reset pass to the environment, which keeps its state, and the bytes pending
on `rx_in` stay (log 6, log 19, log 22); a reserved typeSeq byte offered alone, an expiry while not armed
and a change of transport are refused by name (log 8, log 12, log 13). -/
def Obligations.StepHandlesOtherInputs : Prop :=
  (∀ (s : State) (e : Event) (inputs : List Input), s.ports.inputs = .event e :: inputs →
    step s = handleEvent e { s with ports := { s.ports with inputs := inputs } }) ∧
  (∀ (s : State) (bytes : List Byte) (inputs : List Input), s.ports.inputs = .event (.arrive bytes) :: inputs →
    step s = .next { s with
      env := { s.env with unread := s.env.unread ++ bytes }
      ports := { s.ports with inputs := inputs } }) ∧
  (∀ (s : State) (inputs : List Input), s.ports.inputs = .signal .reset :: inputs →
    ∃ t, step s = .next t ∧ t.block = State.reset.block ∧ t.env = s.env ∧
      t.ports = { s.ports with inputs := inputs, txTaken := s.ports.txTaken ++ s.block.txOut }) ∧
  (∀ (s : State) (n : Nat) (inputs : List Input), s.ports.inputs = .signal (.takeTx n) :: inputs →
    ∃ t, step s = .next t ∧ t.block = { s.block with txOut := s.block.txOut.drop n } ∧ t.env = s.env ∧
      t.ports = { s.ports with inputs := inputs, txTaken := s.ports.txTaken ++ s.block.txOut.take n }) ∧
  (∀ (s : State) (bytes : List Byte) (inputs : List Input), s.ports.inputs = .signal (.rxIn bytes) :: inputs →
    step s = .next { s with ports := { s.ports with inputs := inputs, rxIn := s.ports.rxIn ++ bytes } }) ∧
  (∀ (s : State) (b : Byte) (inputs : List Input), s.ports.inputs = .typeSeq b :: inputs → 0x20 ≤ b.toNat →
    step s = .refused (.reservedTypeSeq b)) ∧
  (∀ (s : State) (inputs : List Input), s.ports.inputs = .event .inactivityElapsed :: inputs →
    s.env.inactArmed = false → step s = .refused .inactivityNotArmed) ∧
  (∀ (s : State) (inputs : List Input), s.ports.inputs = .event .repoint :: inputs →
    step s = .refused .transportRepointed)

/-! ## Reset -/

/-- R25: the block after reset, `crc_table` holding its constants; STATUS then reads 0x0000. -/
def Obligations.ResetValues : Prop :=
  State.reset.block.crcAcc = 0x0000 ∧ State.reset.block.txCrc = 0x0000 ∧ State.reset.block.rxLen = 0 ∧
  (∀ a, State.reset.block.rxBuf.read a = none) ∧ State.reset.block.encPhase = .idle ∧
  State.reset.block.rxOvr = false ∧ State.reset.block.txOut = [] ∧ statusWord State.reset.block = 0x0000 ∧
  (∀ i : Byte, tblRead i = swap16 (rawEntry i))

/-- The invariant holds at reset, and the environment starts at the values R23 gives (derived). -/
def Obligations.ResetMeetsInvariant : Prop :=
  State.Inv State.reset ∧
  State.reset.env.busy = false ∧ State.reset.env.outstanding = 0 ∧ State.reset.env.seqCtr = 0 ∧
  State.reset.env.inactArmed = false ∧ State.reset.env.connected = false ∧ State.reset.env.sendQueue = []

/-! ## The CRC Engine -/

/-- R70: each of the 256 listed entries is the byte-swapped result of eight reflected-division steps from its index; with
the checks R71 gives on the listing. -/
def Obligations.TableIsGenerated : Prop :=
  crcTable.length = 256 ∧
  (∀ i : Byte, ∃ crc : Word,
    crc = (fun c : Word => if c.getLsbD 0 = true then (c >>> 1) ^^^ 0xA001 else c >>> 1)^[8] (i.setWidth 16) ∧
    crcTable[i.toNat]? = some (((crc &&& 0xFF) <<< 8) ||| (crc >>> 8)) ∧ crcTable[i.toNat]? = some (tblRead i)) ∧
  crcTable.foldl (· ^^^ ·) 0 = 0x0000 ∧ (crcTable.map (·.toNat)).sum = 0x60FF80 ∧
  tblRead 0x01 = 0xC1C0 ∧ tblRead 0x80 = 0x01A0 ∧ tblRead 0xFF = 0x4040

/-- R72, on unbounded numbers: the index is 8 bits, the shift is taken before the truncation. R73: the checksum is the
left fold from 0x0000, with no final step. -/
def Obligations.FoldAndChecksumFormula : Prop :=
  (∀ (s : Word) (b : Byte),
    (fold s b).toNat =
      ((s.toNat <<< 8) ^^^ (tblRead (BitVec.ofNat 8 (b.toNat ^^^ (s.toNat >>> 8)))).toNat) % 65536 ∧
    b.toNat ^^^ (s.toNat >>> 8) < 256) ∧
  checksum [] = 0x0000 ∧ (∀ (l : List Byte) (b : Byte), checksum (l ++ [b]) = fold (checksum l) b)

/-- Three laws of fold (derived): zero bytes never leave 0; fold is linear over exclusive-or; the engine is the
byte-swapped image of the right-shifting engine on the raw table. -/
def Obligations.FoldLaws : Prop :=
  (∀ n : Nat, checksum (List.replicate n 0x00) = 0x0000) ∧
  (∀ (s1 s2 : Word) (b1 b2 : Byte), fold (s1 ^^^ s2) (b1 ^^^ b2) = fold s1 b1 ^^^ fold s2 b2) ∧
  (∀ (s : Word) (b : Byte),
    fold (swap16 s) b = swap16 ((s >>> 8) ^^^ rawEntry ((s ^^^ b.setWidth 16).setWidth 8)))

/-- R75: CRC.CLR, in any state. -/
def Obligations.CrcClrClearsAccumulator : Prop :=
  encode .crcClr = .cmd 0x1000 [] ∧
  ∀ s : State, exec .crcClr s =
    .next { s with block := { s.block with crcAcc := 0x0000 }, ports := { s.ports with resp := s.ports.resp ++ [.ok] } }

/-- R76: CRC.FOLD, in any state, for any byte. -/
def Obligations.CrcFoldUpdatesAccumulator : Prop :=
  (∀ b : Byte, encode (.crcFold b) = .cmd (0x2000 ||| b.setWidth 16) []) ∧
  (∀ (b : Byte) (s : State), exec (.crcFold b) s =
    .next { s with
      block := { s.block with crcAcc := fold s.block.crcAcc b }
      ports := { s.ports with resp := s.ports.resp ++ [.ok] } }) ∧
  fold 0x0000 0x00 = 0x0000 ∧ fold 0xC1C0 0x10 = 0x005C

/-- R77: CRC.RD answers the accumulator and writes nothing. -/
def Obligations.CrcRdReadsAccumulator : Prop :=
  encode .crcRd = .cmd 0x3000 [] ∧
  ∀ s : State, exec .crcRd s =
    .next { s with ports := { s.ports with resp := s.ports.resp ++ [.okValue s.block.crcAcc] } }

/-- The source's `checksum(bytes)` as the block performs it: CHECKSUM answers `checksum bytes` last and leaves it in
`crc_acc`, nothing else changing (derived from R64, R73, R75 to R77). -/
def Obligations.ChecksumPseudoAnswersChecksum : Prop :=
  ∀ (bytes : List Byte) (s : State), execPseudo (.checksum bytes) s =
    .next { s with
      block := { s.block with crcAcc := checksum bytes }
      ports := { s.ports with
        resp := s.ports.resp ++ List.replicate (bytes.length + 1) .ok ++ [.okValue (checksum bytes)] } }

/-! ## The Frame Encoder -/

/-- R85: `encode` is its pseudocode, run as written: an output and a checksum threaded through `put`. -/
def Obligations.EncodeFollowsPseudocode : Prop :=
  ∀ (t : PacketType) (sq : BitVec 3) (payload : List Byte),
    let put : List Byte × Word → Byte → List Byte × Word := fun (out, c) b =>
      (if b = 0x10 then (out ++ [b]) ++ [0x10] else out ++ [b], fold c b)
    let typeSeq : Byte := (t.bits.setWidth 8 <<< 3) ||| sq.setWidth 8
    let filled := payload.foldl put (put (put ([0x16, 0x10, 0x02], 0x0000) 0x01) typeSeq)
    encodeFrame t sq payload =
      filled.1 ++ [0x10, 0x03] ++ [filled.2.extractLsb' 8 8, filled.2.extractLsb' 0 8]

/-- R86: ENC.START in `IDLE` emits preamble, channel and stuffed typeSeq and enters `BODY`; in `BODY` it is BADCMD and
changes nothing. -/
def Obligations.EncStartOpensFrame : Prop :=
  (∀ (t : PacketType) (sq : BitVec 3),
    encode (.encStart t sq) = .cmd (0x4000 ||| (t.bits.setWidth 16 <<< 3) ||| sq.setWidth 16) [] ∧
    (typeSeqByte t sq).toNat ≤ 0x1F) ∧
  fold 0x0000 0x01 = 0xC1C0 ∧
  (∀ (t : PacketType) (sq : BitVec 3) (s : State), s.block.encPhase = .idle →
    exec (.encStart t sq) s =
      .next { s with
        block := { s.block with
          txCrc := fold (fold 0x0000 0x01) (typeSeqByte t sq)
          encPhase := .body
          txOut := s.block.txOut ++ [0x16, 0x10, 0x02, 0x01] ++
            (if typeSeqByte t sq = 0x10 then [0x10, 0x10] else [typeSeqByte t sq]) }
        ports := { s.ports with resp := s.ports.resp ++ [.ok] } }) ∧
  (∀ (t : PacketType) (sq : BitVec 3) (s : State), s.block.encPhase = .body →
    exec (.encStart t sq) s = .next { s with ports := { s.ports with resp := s.ports.resp ++ [.badCmd] } })

/-- R87: ENC.DATA in `BODY` folds the byte once and emits it, twice if it is 0x10; in `IDLE` it is BADCMD. -/
def Obligations.EncDataEmitsPayloadByte : Prop :=
  (∀ b : Byte, encode (.encData b) = .cmd (0x5000 ||| b.setWidth 16) []) ∧
  (∀ (b : Byte) (s : State), s.block.encPhase = .body →
    exec (.encData b) s =
      .next { s with
        block := { s.block with
          txCrc := fold s.block.txCrc b
          txOut := s.block.txOut ++ (if b = 0x10 then [0x10, 0x10] else [b]) }
        ports := { s.ports with resp := s.ports.resp ++ [.ok] } }) ∧
  (∀ (b : Byte) (s : State), s.block.encPhase = .idle →
    exec (.encData b) s = .next { s with ports := { s.ports with resp := s.ports.resp ++ [.badCmd] } })

/-- R88: ENC.END in `BODY` emits the postamble and the two raw checksum bytes, high byte first, and returns to `IDLE`,
`tx_crc` keeping its value; in `IDLE` it is BADCMD. -/
def Obligations.EncEndClosesFrame : Prop :=
  encode .encEnd = .cmd 0x6000 [] ∧
  (∀ s : State, s.block.encPhase = .body →
    exec .encEnd s =
      .next { s with
        block := { s.block with
          encPhase := .idle
          txOut := s.block.txOut ++
            [0x10, 0x03, s.block.txCrc.extractLsb' 8 8, s.block.txCrc.extractLsb' 0 8] }
        ports := { s.ports with resp := s.ports.resp ++ [.ok] } }) ∧
  (∀ s : State, s.block.encPhase = .idle →
    exec .encEnd s = .next { s with ports := { s.ports with resp := s.ports.resp ++ [.badCmd] } })

/-- The three-command split computes the one-call function (derived; the equivalence 41_encoder.md states): whatever
other commands stand between them, ENC.START, one ENC.DATA per payload byte and ENC.END append exactly the frame. -/
def Obligations.EncoderCommandsEqualEncode : Prop :=
  ∀ (t : PacketType) (sq : BitVec 3) (payload : List Byte) (commands : List Instr) (s : State),
    RxInv s.block → s.block.encPhase = .idle →
    commands.filter isEnc = .encStart t sq :: (payload.map .encData ++ [.encEnd]) →
    ∃ u, execAll commands s = .next u ∧ u.block.encPhase = .idle ∧
      u.block.txOut = s.block.txOut ++ encodeFrame t sq payload

/-- The frame's length, head and tail (derived: 9 + payload + one more for every logical 0x10). -/
def Obligations.FrameLengthHeadAndTail : Prop :=
  ∀ (t : PacketType) (sq : BitVec 3) (payload : List Byte),
    (encodeFrame t sq payload).length = 9 + payload.length + (typeSeqByte t sq :: payload).count 0x10 ∧
    (encodeFrame t sq payload).take 4 = [0x16, 0x10, 0x02, 0x01] ∧
    ∃ hi lo : Byte,
      (encodeFrame t sq payload).drop ((encodeFrame t sq payload).length - 4) = [0x10, 0x03, hi, lo] ∧
      (hi.setWidth 16 <<< 8) ||| lo.setWidth 16 = checksum (0x01 :: typeSeqByte t sq :: payload)

/-- In stuffed bytes every maximal run of 0x10 has even length (derived). -/
def Obligations.StuffedRunsAreEven : Prop :=
  ∀ (l a b : List Byte) (k : Nat), stuffAll l = a ++ List.replicate k 0x10 ++ b →
    a.getLast? ≠ some 0x10 → b.head? ≠ some 0x10 → k % 2 = 0

/-- The stuffed body holds a 10 03 pair exactly when some logical 0x10 is directly followed by 0x03; otherwise the first
pair of the whole frame is its postamble (derived). -/
def Obligations.FirstPairOfFrame : Prop :=
  ∀ (t : PacketType) (sq : BitVec 3) (payload : List Byte),
    (findPair (stuffAll (logicalBytes t sq payload))).isSome = hasPair (typeSeqByte t sq :: payload) ∧
    (hasPair (typeSeqByte t sq :: payload) = false →
      findPair (encodeFrame t sq payload) = some ((encodeFrame t sq payload).length - 4)) ∧
    (hasPair (typeSeqByte t sq :: payload) = true →
      ∃ q, findPair (encodeFrame t sq payload) = some q ∧ 5 ≤ q ∧ q < (encodeFrame t sq payload).length - 4)

/-! ## The receive buffer -/

/-- R101: an accepted RX.PUSH appends exactly its bytes, in order, and touches no other byte, register or flag. The bytes
stored are `bytes`, at the offsets from the old `rx_len` on. -/
def Obligations.PushAppendsDelivery : Prop :=
  (∀ bytes : List Byte, bytes.length < 1024 →
    encode (.rxPush bytes) = .cmd (0x8000 ||| BitVec.ofNat 16 bytes.length) bytes) ∧
  (∀ (bytes : List Byte) (s : State), s.block.rxLen.toNat + bytes.length ≤ 512 →
    ∃ t, exec (.rxPush bytes) s = .next t ∧
      t.block.rxLen.toNat = s.block.rxLen.toNat + bytes.length ∧
      (∀ a, t.block.rxBuf.read a =
        if s.block.rxLen.toNat ≤ a ∧ a < s.block.rxLen.toNat + bytes.length
        then bytes[a - s.block.rxLen.toNat]? else s.block.rxBuf.read a) ∧
      t.block = { s.block with rxLen := t.block.rxLen, rxBuf := t.block.rxBuf } ∧
      t.env = s.env ∧ t.ports = { s.ports with resp := s.ports.resp ++ [.ok] }) ∧
  (∀ s : State, s.block.rxLen.toNat ≤ 512 →
    exec (.rxPush []) s = .next { s with ports := { s.ports with resp := s.ports.resp ++ [.ok] } })

/-- R102: a delivery that would pass 512 bytes is taken from `rx_in` and wholly discarded; `rx_ovr` is set, the status is
OVERRUN, `rx_buf` and `rx_len` are unchanged. -/
def Obligations.OverrunDropsDelivery : Prop :=
  (∀ (bytes : List Byte) (s : State), 512 < s.block.rxLen.toNat + bytes.length →
    exec (.rxPush bytes) s =
      .next { s with
        block := { s.block with rxOvr := true }
        ports := { s.ports with resp := s.ports.resp ++ [.overrun] } }) ∧
  (∀ (s : State) (w : Word) (inputs : List Input) (bytes rest : List Byte),
    s.ports.inputs = .cmd w :: inputs → encode (.rxPush bytes) = .cmd w bytes → bytes.length < 1024 →
    s.ports.rxIn = bytes ++ rest → 512 < s.block.rxLen.toNat + bytes.length →
    step s =
      .next { s with
        block := { s.block with rxOvr := true }
        ports := { s.ports with inputs := inputs, rxIn := rest, resp := s.ports.resp ++ [.overrun] } })

/-- R104, R192: RX.CLEAR empties the buffer and clears the flag, always OK, and leaves every other register alone. -/
def Obligations.RxClearEmptiesBuffer : Prop :=
  encode .rxClear = .cmd 0xB000 [] ∧
  ∀ s : State, ∃ t, exec .rxClear s = .next t ∧ t.block.rxLen = 0 ∧ t.block.rxOvr = false ∧
    t.block.crcAcc = s.block.crcAcc ∧ t.block.txCrc = s.block.txCrc ∧ t.block.encPhase = s.block.encPhase ∧
    t.block.txOut = s.block.txOut ∧ t.env = s.env ∧ t.ports = { s.ports with resp := s.ports.resp ++ [.ok] } ∧
    (∀ a, t.block.rxBuf.read a = none)

/-- R15, R106: STATUS answers the status word, field by field, and writes nothing. -/
def Obligations.StatusReadsFields : Prop :=
  encode .status = .cmd 0xC000 [] ∧
  (∀ s : State, ∃ v : Word,
    exec .status s = .next { s with ports := { s.ports with resp := s.ports.resp ++ [.okValue v] } } ∧
    v.extractLsb' 0 10 = s.block.rxLen ∧ v.getLsbD 10 = s.block.rxOvr ∧
    v.getLsbD 11 = decide (s.block.encPhase = .body) ∧ v.extractLsb' 12 4 = 0) ∧
  statusWord State.reset.block = 0x0000

/-- What the buffer holds after each instruction (derived; 10_state.md's second invariant): an accepted push appends, a
clear and a consuming success empty it, nothing else changes it. -/
def Obligations.BufferHoldsPushedBytes : Prop :=
  ∀ (i : Instr) (s t : State) (B : List Byte), RxInv s.block → s.block.rxBytes = some B → exec i s = .next t →
    t.block.rxBytes = some (match i with
      | .rxPush bytes => if B.length + bytes.length ≤ 512 then B ++ bytes else B
      | .rxClear => []
      | .rxExtract true => if (extract B).status = .ok then [] else B
      | _ => B)

/-- R105: RX.CLEAR, a successful RX.EXTRACT with consume = 1, and reset empty the buffer; every other instruction leaves
each valid byte and never shortens it. -/
def Obligations.OnlyThreeThingsEmptyBuffer : Prop :=
  (∀ (i : Instr) (s t : State), exec i s = .next t → i ≠ .rxClear →
    (¬ ∃ B m, i = .rxExtract true ∧ s.block.rxBytes = some B ∧ extract B = .okMessage m) →
    s.block.rxLen.toNat ≤ t.block.rxLen.toNat ∧
    ∀ a, a < s.block.rxLen.toNat → t.block.rxBuf.read a = s.block.rxBuf.read a) ∧
  (∀ s t : State, exec .rxClear s = .next t → t.block.rxLen = 0) ∧
  (∀ (s t : State) (B : List Byte) (m : Message), s.block.rxBytes = some B → extract B = .okMessage m →
    exec (.rxExtract true) s = .next t → t.block.rxLen = 0) ∧
  (∀ (s t : State) (inputs : List Input), s.ports.inputs = .signal .reset :: inputs → step s = .next t → t.block.rxLen = 0)

/-- R14: `rx_ovr` is set by an overrunning push, cleared with the buffer, written by nothing else; no command but STATUS
answers differently for it. -/
def Obligations.OverrunFlagIsSticky : Prop :=
  (∀ (i : Instr) (s t : State), exec i s = .next t →
    t.block.rxOvr = match i with
      | .rxPush bytes => s.block.rxOvr || decide (512 < s.block.rxLen.toNat + bytes.length)
      | .rxClear => false
      | .rxExtract true => s.block.rxOvr && !(s.block.rxBytes.map fun B => isMessage (extract B)).getD false
      | _ => s.block.rxOvr) ∧
  (∀ (i : Instr) (s t : State) (v : Bool), i ≠ .status → exec i s = .next t →
    ∃ u, exec i { s with block := { s.block with rxOvr := v } } = .next u ∧ u.ports = t.ports) ∧
  (∀ (s t : State) (inputs : List Input), s.ports.inputs = .signal .reset :: inputs → step s = .next t →
    t.block.rxOvr = false) ∧
  State.reset.block.rxOvr = false

/-- A byte at or beyond `rx_len` is never read (R18: "no rule reads it"; derived): two states whose buffers agree below
`rx_len` answer alike, and agree below `rx_len` after. -/
def Obligations.BytesBeyondLengthNeverMatter : Prop :=
  ∀ (i : Instr) (s : State) (m : Memory), (∀ a, a < s.block.rxLen.toNat → m.read a = s.block.rxBuf.read a) →
    match exec i s, exec i { s with block := { s.block with rxBuf := m } } with
    | .next t, .next u => u.ports = t.ports ∧ u.env = t.env ∧
        u.block = { t.block with rxBuf := u.block.rxBuf } ∧
        ∀ a, a < t.block.rxLen.toNat → u.block.rxBuf.read a = t.block.rxBuf.read a
    | .fault f, .fault g => f = g
    | .refused _, _ => False
    | _, .refused _ => False
    | .next _, .fault _ => False
    | .fault _, .next _ => False

/-! ## The extraction -/

/-- R116 to R121: the machine's extraction is the index-by-index listing, on every byte list. -/
def Obligations.ExtractEqualsListing : Prop := ∀ B : List Byte, extract B = extractListing B

/-- R123 with R115: RX.EXTRACT answers the extraction of the whole buffer, and clears the buffer exactly on OK with
consume = 1. -/
def Obligations.ExtractCommandConsumes : Prop :=
  (∀ c : Bool, encode (.rxExtract c) = .cmd (0x9000 ||| (BitVec.ofBool c).setWidth 16) []) ∧
  (∀ B : List Byte, extract B = .noFrame ∨ (∃ c e, extract B = .corrupt c e) ∨ (∃ b, extract B = .badType b) ∨
    ∃ m, extract B = .okMessage m) ∧
  (∀ (c : Bool) (s : State) (B : List Byte), s.block.rxBytes = some B →
    (c = false ∨ ∀ m, extract B ≠ .okMessage m) →
    exec (.rxExtract c) s = .next { s with ports := { s.ports with resp := s.ports.resp ++ [extract B] } }) ∧
  (∀ (s : State) (B : List Byte) (m : Message), s.block.rxBytes = some B → extract B = .okMessage m →
    ∃ t, exec (.rxExtract true) s = .next t ∧ t.block.rxLen = 0 ∧ t.block.rxOvr = false ∧
      (∀ a, t.block.rxBuf.read a = none) ∧
      t.block = { s.block with rxLen := 0, rxOvr := false, rxBuf := t.block.rxBuf } ∧ t.env = s.env ∧
      t.ports = { s.ports with resp := s.ports.resp ++ [.okMessage m] })

/-- R124: RX.VALID writes nothing and answers whether a valid frame is present; answering 1, a following RX.EXTRACT 1
answers OK. -/
def Obligations.RxValidProbes : Prop :=
  encode .rxValid = .cmd 0xA000 [] ∧
  (∀ (s : State) (B : List Byte), s.block.rxBytes = some B →
    exec .rxValid s =
      .next { s with ports := { s.ports with resp := s.ports.resp ++ [.okValid (isMessage (extract B))] } }) ∧
  (∀ s t : State, exec .rxValid s = .next t → t.ports.resp = s.ports.resp ++ [.okValid true] →
    ∃ u m, exec (.rxExtract true) t = .next u ∧ u.ports.resp = t.ports.resp ++ [.okMessage m])

/-- A returned payload is at least nine bytes shorter than the buffer, so at most 503 bytes, and `len` is its length
(derived). -/
def Obligations.ExtractedPayloadIsBounded : Prop :=
  ∀ (B : List Byte) (m : Message), extract B = .okMessage m → m.payload.length + 9 ≤ B.length ∧
    (B.length ≤ 512 → m.payload.length ≤ 503 ∧ (lenField m).toNat = m.payload.length)

/-- Bytes appended behind a finished extraction never change its answer (derived): a corrupt frame stays corrupt, and a
buffer of three or more bytes not beginning with the preamble is NOFRAME for ever. -/
def Obligations.LaterBytesNeverHelp : Prop :=
  (∀ B later : List Byte, extract B ≠ .noFrame → extract (B ++ later) = extract B) ∧
  (∀ B later : List Byte, 3 ≤ B.length → B.take 3 ≠ [0x16, 0x10, 0x02] → extract (B ++ later) = .noFrame)

/-- Round trip (derived): a frame whose logical bytes hold no 10 03 decodes to what was encoded. The bound on its length
is the buffer's, not the extraction's: this holds at any length. -/
def Obligations.ExtractOfEncode : Prop :=
  ∀ (t : PacketType) (sq : BitVec 3) (payload : List Byte), hasPair (typeSeqByte t sq :: payload) = false →
    extract (encodeFrame t sq payload) = .okMessage { type := t, seq := sq, payload := payload }

/-- The inherited ambiguity (derived): with a 10 03 among the logical bytes the frame is CORRUPT, or OK with a wrong
Message whose payload is a proper initial part of the real one; never NOFRAME, BADTYPE or the real Message. -/
def Obligations.AmbiguousFrameMisreads : Prop :=
  ∀ (t : PacketType) (sq : BitVec 3) (payload : List Byte), hasPair (typeSeqByte t sq :: payload) = true →
    (∃ c e, extract (encodeFrame t sq payload) = .corrupt c e) ∨
    (∃ k, k < payload.length ∧
      extract (encodeFrame t sq payload) = .okMessage { type := t, seq := sq, payload := payload.take k })

/-- Fragmented delivery (derived): one conforming frame, cut anyhow into non-empty pieces and delivered in order into an
empty buffer, gives NOFRAME for every piece but the last, and the Message for the last, the buffer ending empty. -/
def Obligations.FragmentedDeliveryExtractsOnce : Prop :=
  ∀ (t : PacketType) (sq : BitVec 3) (payload : List Byte) (pieces : List (List Byte)) (s : State),
    hasPair (typeSeqByte t sq :: payload) = false → (encodeFrame t sq payload).length ≤ 512 →
    (∀ c ∈ pieces, c ≠ []) → pieces.flatten = encodeFrame t sq payload →
    RxInv s.block → s.block.rxLen = 0 →
    ∃ u, deliverAll pieces s = .next (u, List.replicate (pieces.length - 1) .noFrame ++
        [.okMessage { type := t, seq := sq, payload := payload }]) ∧
      u.block.rxBytes = some [] ∧ u.block.rxLen = 0

/-! ## Pseudo-instructions -/

/-- R64, R107: each pseudo-instruction is its expansion; DELIVER attempts no extraction after an overrun, and its result
is the response of the last command executed: the OVERRUN, or the extraction's behind the push's OK. -/
def Obligations.PseudoInstructionsExpand : Prop :=
  (∀ (bytes : List Byte) (s : State),
    execPseudo (.checksum bytes) s = execAll (.crcClr :: (bytes.map .crcFold ++ [.crcRd])) s) ∧
  (∀ (t : PacketType) (sq : BitVec 3) (payload : List Byte) (s : State),
    execPseudo (.encode t sq payload) s = execAll (.encStart t sq :: (payload.map .encData ++ [.encEnd])) s) ∧
  (∀ (bytes : List Byte) (s t : State), exec (.rxPush bytes) s = .next t →
    execPseudo (.deliver bytes) s =
      if t.ports.resp = s.ports.resp ++ [.overrun] then .next t else exec (.rxExtract true) t) ∧
  (∀ (bytes : List Byte) (s t : State) (r : Response), deliver bytes s = .next (t, r) →
    execPseudo (.deliver bytes) s = .next t ∧
    ((r = .overrun ∧ t.ports.resp = s.ports.resp ++ [r]) ∨
      (∃ B, s.block.rxBytes = some B ∧ r = extract (B ++ bytes) ∧ t.ports.resp = s.ports.resp ++ [.ok, r]))) ∧
  (∀ s : State, execPseudo .probe s = exec .rxValid s) ∧
  (∀ s : State, execPseudo .discard s = exec .rxClear s)

/-! ## Whole-machine rules of the block -/

/-- R165: every command that ends has produced exactly one response, with one of the command's possible statuses (R167,
derived). That a typeSeq byte offered alone produces none is the model's choice (log 7). Then the codes of the statuses
(R166), of which 6 and 7 are never produced. -/
def Obligations.EveryCommandAnswersOnce : Prop :=
  (∀ (i : Instr) (s t : State), exec i s = .next t →
    if isCommand i = true then
      ∃ r, t.ports.resp = s.ports.resp ++ [r] ∧
        r.status ∈ (match i with
          | .encStart _ _ | .encData _ | .encEnd => [.ok, .badCmd]
          | .rxPush _ => [.ok, .overrun]
          | .rxExtract _ => [.ok, .noFrame, .corrupt, .badType]
          | _ => [.ok] : List Status)
    else t.ports.resp = s.ports.resp) ∧
  (Status.ok.code = 0 ∧ Status.noFrame.code = 1 ∧ Status.corrupt.code = 2 ∧ Status.overrun.code = 3 ∧
    Status.badType.code = 4 ∧ Status.badCmd.code = 5) ∧
  (∀ r : Response, r.status.code ≠ 6 ∧ r.status.code ≠ 7)

/-- R170: a command that does not answer OK has changed no state at all, except that OVERRUN sets `rx_ovr`. -/
def Obligations.FailedCommandChangesNothing : Prop :=
  ∀ (i : Instr) (s t : State) (r : Response), exec i s = .next t → t.ports.resp = s.ports.resp ++ [r] →
    r.status ≠ .ok →
    t = { s with
      block := if r.status = .overrun then { s.block with rxOvr := true } else s.block
      ports := { s.ports with resp := s.ports.resp ++ [r] } }

/-- The frame of the instructions that store nothing in `rx_buf`: every byte reads as before, `rx_len` and `rx_ovr` are
unchanged, and so are the environment and the pending inputs; a CRC.* command leaves the encoder alone, an ENC.* command
leaves `crc_acc` alone, the rest leave both (derived from R79, R89, R92, R106, R124). -/
def Obligations.NonStoringCommandsFrame : Prop :=
  ∀ (i : Instr) (s t : State), exec i s = .next t →
    (∀ bytes, i ≠ .rxPush bytes) → i ≠ .rxExtract true → i ≠ .rxClear →
    (∀ a, t.block.rxBuf.read a = s.block.rxBuf.read a) ∧ t.block.rxLen = s.block.rxLen ∧
    t.block.rxOvr = s.block.rxOvr ∧ t.env = s.env ∧ t.ports.inputs = s.ports.inputs ∧
    t.ports.rxIn = s.ports.rxIn ∧ t.ports.txTaken = s.ports.txTaken ∧ t.ports.host = s.ports.host ∧
    (isEnc i = false → t.block.txCrc = s.block.txCrc ∧ t.block.encPhase = s.block.encPhase ∧
      t.block.txOut = s.block.txOut) ∧
    ((i ≠ .crcClr ∧ ∀ b, i ≠ .crcFold b) → t.block.crcAcc = s.block.crcAcc)

/-- The frame of the three commands that change the receive buffer (derived from R89, R92, R101 to R104, R123): they
leave `crc_acc`, the encoder and the environment alone, and a byte outside the stored ones reads as before. The stored
bytes are an accepted push's, from the old `rx_len` on. -/
def Obligations.BufferCommandsFrame : Prop :=
  ∀ (i : Instr) (s t : State), exec i s = .next t →
    ((∃ bytes, i = .rxPush bytes) ∨ i = .rxExtract true ∨ i = .rxClear) →
    t.block.crcAcc = s.block.crcAcc ∧ t.block.txCrc = s.block.txCrc ∧ t.block.encPhase = s.block.encPhase ∧
    t.block.txOut = s.block.txOut ∧ t.env = s.env ∧ t.ports.inputs = s.ports.inputs ∧
    t.ports.rxIn = s.ports.rxIn ∧ t.ports.txTaken = s.ports.txTaken ∧ t.ports.host = s.ports.host ∧
    (∀ bytes, i = .rxPush bytes → ∀ a,
      ¬(s.block.rxLen.toNat ≤ a ∧ a < s.block.rxLen.toNat + bytes.length) →
      t.block.rxBuf.read a = s.block.rxBuf.read a)

/-- No output log is ever read (R21, R24; derived): a step does the same to the block, the environment and the pending
inputs whatever the logs hold. -/
def Obligations.OutputLogsAreNeverRead : Prop :=
  ∀ (s : State) (resp : List Response) (fields : List (PacketType × BitVec 3)) (taken : List Byte)
    (host : List HostOutput),
    match step s,
      step { s with ports := { s.ports with resp := resp, typeSeqRead := fields, txTaken := taken, host := host } } with
    | .next t, .next u => u.block = t.block ∧ u.env = t.env ∧ u.ports.inputs = t.ports.inputs ∧
        u.ports.rxIn = t.ports.rxIn
    | .fault f, .fault g => f = g
    | .refused q, .refused r => q = r
    | .next _, .fault _ => False
    | .next _, .refused _ => False
    | .fault _, .next _ => False
    | .fault _, .refused _ => False
    | .refused _, .next _ => False
    | .refused _, .fault _ => False

/-- Emitted bytes only grow, in the order emitted (R20, R39; derived): what the environment has taken, then `tx_out`, is
an initial part of the same after any step. It holds of a reset because the bytes left on `tx_out` then pass to the
environment: the model's choice (log 6). -/
def Obligations.EmittedBytesOnlyGrow : Prop :=
  ∀ s t : State, step s = .next t →
    ∃ new, t.ports.txTaken ++ t.block.txOut = s.ports.txTaken ++ s.block.txOut ++ new

/-! ## The typeSeq rows -/

/-- Each TYPESEQ row completes in every state: it reads out its type and sequence and changes nothing of the block or the
environment (the model's choice, log 7; the byte is R51's). -/
def Obligations.TypeSeqRowsReadFields : Prop :=
  ∀ (sq : BitVec 3) (s : State),
    (exec (.typeSeqAcknowledge sq) s =
      .next { s with ports := { s.ports with typeSeqRead := s.ports.typeSeqRead ++ [(.acknowledge, sq)] } } ∧
    exec (.typeSeqDisconnect sq) s =
      .next { s with ports := { s.ports with typeSeqRead := s.ports.typeSeqRead ++ [(.disconnect, sq)] } } ∧
    exec (.typeSeqLinkRequest sq) s =
      .next { s with ports := { s.ports with typeSeqRead := s.ports.typeSeqRead ++ [(.linkRequest, sq)] } } ∧
    exec (.typeSeqData sq) s =
      .next { s with ports := { s.ports with typeSeqRead := s.ports.typeSeqRead ++ [(.data, sq)] } }) ∧
    encode (.typeSeqAcknowledge sq) = .typeSeq (sq.setWidth 8) ∧
    encode (.typeSeqDisconnect sq) = .typeSeq (0x08 ||| sq.setWidth 8) ∧
    encode (.typeSeqLinkRequest sq) = .typeSeq (0x10 ||| sq.setWidth 8) ∧
    encode (.typeSeqData sq) = .typeSeq (0x18 ||| sq.setWidth 8)

/-! ## Invariants -/

/-- Every step keeps the invariant: `rx_len` at most 512 and the buffer canonical with a value at exactly the offsets
below it, `tx_crc` the checksum of the frame in progress, the environment's bookkeeping (R26, R151, R152; derived). -/
def Obligations.StepKeepsInvariant : Prop := ∀ s t : State, State.Inv s → step s = .next t → State.Inv t

/-- From a state that meets the receive invariant no step faults (derived from R36, R170). -/
def Obligations.InvariantRulesOutFaults : Prop :=
  ∀ (s : State) (f : Fault), RxInv s.block → step s ≠ .fault f

/-! ## The environment -/

/-- R141, R142: a `send` while `busy` returns false with no side effect of any kind; else it sets `busy`, numbers the
frame (data pre-incremented modulo 8, others 0), encodes it on the block, records its length and issues one write request.
The encoder is idle, as one Session alone drives it. -/
def Obligations.SendGateAdmitsOneFrame : Prop :=
  (∀ (t : PacketType) (payload : List Byte) (s : State), s.env.busy = true →
    send t payload s = (s, false) ∧
    handleEvent (.send t payload) s =
      .next { s with ports := { s.ports with host := s.ports.host ++ [.sendResult false] } }) ∧
  (∀ (t : PacketType) (payload : List Byte) (s : State), s.env.busy = false → s.block.encPhase = .idle →
    let ctr : BitVec 3 := if t = .data then BitVec.ofNat 3 ((s.env.seqCtr.toNat + 1) % 8) else s.env.seqCtr
    let sq : BitVec 3 := if t = .data then ctr else 0
    let frame := encodeFrame t sq payload
    send t payload s =
      ({ block := { s.block with
            txCrc := checksum (logicalBytes t sq payload), txOut := s.block.txOut ++ frame }
         env := { s.env with busy := true, seqCtr := ctr, outstanding := frame.length }
         ports := { s.ports with
            resp := s.ports.resp ++ List.replicate (payload.length + 2) .ok
            host := s.ports.host ++ [.write frame] } }, true) ∧
    handleEvent (.send t payload) s = .next ((send t payload s).1.output (.sendResult true)))

/-- In any phase of the encoder (derived; log 14 for a frame already open): an admitted `send` performs ENCODE on the
block, counts the bytes that appended to `tx_out` as outstanding, and writes exactly those, once. -/
def Obligations.SendWritesWhatEncodeAppends : Prop :=
  ∀ (t : PacketType) (payload : List Byte) (s : State), s.env.busy = false →
    let ctr : BitVec 3 := if t = .data then s.env.seqCtr + 1 else s.env.seqCtr
    let sq : BitVec 3 := if t = .data then ctr else 0
    ∃ v, execPseudo (.encode t sq payload) { s with env := { s.env with busy := true, seqCtr := ctr } } = .next v ∧
      let written := v.block.txOut.drop s.block.txOut.length
      v.block.txOut = s.block.txOut ++ written ∧
      send t payload s =
        ({ v with
            env := { v.env with outstanding := written.length }
            ports := { v.ports with host := v.ports.host ++ [.write written] } }, true)

/-- R143: completions accumulate; reaching zero releases `busy`; one that reports more than outstanding saturates at
zero and is a diagnostic. -/
def Obligations.CompletionReleasesBusy : Prop :=
  ∀ (k : Nat) (s : State), ∃ t, handleEvent (.completion k) s = .next t ∧ t.block = s.block ∧
    t.env = { s.env with outstanding := t.env.outstanding, busy := t.env.busy } ∧
    (k ≤ s.env.outstanding → t.env.outstanding + k = s.env.outstanding ∧ t.ports = s.ports) ∧
    (s.env.outstanding < k → t.env.outstanding = 0 ∧
      t.ports = { s.ports with host := s.ports.host ++ [.diagnostic .writeOverrun] }) ∧
    t.env.busy = (s.env.busy && decide (t.env.outstanding ≠ 0))

/-- Single flight (derived): while the completions seen do not cover the bytes outstanding, whatever events occur, the
link stays busy, no frame is written, nothing is emitted and the sequence counter stands. -/
def Obligations.SingleFlightUntilCompletion : Prop :=
  ∀ (events : List Event) (s u : State), s.env.busy = true → completedBytes events < s.env.outstanding →
    handleAll events s = .next u →
    u.env.busy = true ∧ u.env.outstanding + completedBytes events = s.env.outstanding ∧
    u.env.seqCtr = s.env.seqCtr ∧ u.block.txOut = s.block.txOut ∧
    writtenFrames u.ports.host = writtenFrames s.ports.host ∧
    u.ports.host.count (.sendResult true) = s.ports.host.count (.sendResult true)

/-- Data available (derived from R144; the disarming is R148's, the warning R145's): the arrival re-arms the timer and
delivers what was read; a Message goes to the host and disarms the timer; an overrun is reported; any other status does
nothing more. That an event which gives no byte (none unread, or none read) does this too is the model's choice (log 21). -/
def Obligations.DataAvailableDelivers : Prop :=
  ∀ (advertised count : Nat) (s u : State) (r : Response),
    deliver (s.env.unread.take count)
      { s with
        env := { s.env with unread := s.env.unread.drop count, inactArmed := true }
        ports := { s.ports with
          host := s.ports.host ++
            (if (s.env.unread.take count).length < advertised then [.diagnostic .shortRead] else []) } } =
      .next (u, r) →
    ∃ t, handleEvent (.dataAvailable advertised count) s = .next t ∧ t.block = u.block ∧
      t.env.unread = s.env.unread.drop count ∧
      t.env = { s.env with unread := t.env.unread, inactArmed := !isMessage r } ∧
      t.ports = { u.ports with
        host := u.ports.host ++ (match r with
          | .okMessage m => [.packetReceived m]
          | .overrun => [.overrun]
          | _ => []) }

/-- R146: an expiry while armed disarms the timer, discards the buffer by RX.CLEAR and drains the transport (R147). -/
def Obligations.InactivityDiscardsBuffer : Prop :=
  ∀ s : State, s.env.inactArmed = true →
    ∃ t, handleEvent .inactivityElapsed s = .next t ∧
      t.env = { s.env with inactArmed := false, unread := [] } ∧ exec .rxClear s = .next { t with env := s.env }

/-- R150: a tick while not connected and with an empty queue attempts `send(linkRequest, [])`; a busy link is logged. An
idle encoder and a free link then write exactly the reference frame. -/
def Obligations.KeepaliveAttemptsLinkRequest : Prop :=
  (∀ s : State, s.env.connected = false → s.env.sendQueue = [] → s.env.busy = true →
    handleEvent .keepaliveTick s =
      .next { s with ports := { s.ports with host := s.ports.host ++ [.diagnostic .linkBusy] } }) ∧
  (∀ s : State, s.env.connected = false → s.env.sendQueue = [] → s.env.busy = false →
    handleEvent .keepaliveTick s = .next (send .linkRequest [] s).1 ∧ (send .linkRequest [] s).2 = true) ∧
  (∀ s : State, s.env.connected = true ∨ s.env.sendQueue ≠ [] → handleEvent .keepaliveTick s = .next s) ∧
  (∀ s : State, s.env.busy = false → s.block.encPhase = .idle →
    (send .linkRequest [] s).1.ports.host =
      s.ports.host ++ [.write [0x16, 0x10, 0x02, 0x01, 0x10, 0x10, 0x10, 0x03, 0x00, 0x5C]])

/-- R151, R152: `connected` is initially false and the queue empty, and no step ever changes either. -/
def Obligations.NothingConnects : Prop :=
  (∀ s t : State, step s = .next t → t.env.connected = s.env.connected ∧ t.env.sendQueue = s.env.sendQueue) ∧
  State.reset.env.connected = false ∧ State.reset.env.sendQueue = []
end

