-- ==== Sys2Proof/Laws/Crc.lean ====
section
/-! SUPPORT. The laws of fold over lists, and of stuffing: how they go over append, and what stuffing does to one byte. -/

namespace Sys2Proof.Machine

@[simp] theorem foldAll_nil (c : Word) : foldAll c [] = c := rfl

@[simp] theorem foldAll_cons (c : Word) (b : Byte) (l : List Byte) : foldAll c (b :: l) = foldAll (fold c b) l := rfl

theorem foldAll_append (c : Word) (l k : List Byte) : foldAll c (l ++ k) = foldAll (foldAll c l) k :=
  List.foldl_append

/-- A checksum over two parts: fold the second from the checksum of the first. -/
theorem checksum_append (l k : List Byte) : checksum (l ++ k) = foldAll (checksum l) k := foldAll_append _ l k

@[simp] theorem stuff_esc : stuff Config.esc = [Config.esc, Config.esc] := rfl

theorem stuff_of_ne {b : Byte} (h : b ≠ Config.esc) : stuff b = [b] := by simp [stuff, h]

@[simp] theorem stuffAll_nil : stuffAll [] = [] := rfl

@[simp] theorem stuffAll_cons (b : Byte) (l : List Byte) : stuffAll (b :: l) = stuff b ++ stuffAll l := rfl

theorem stuffAll_append (l k : List Byte) : stuffAll (l ++ k) = stuffAll l ++ stuffAll k := List.flatMap_append

/-- The channel is never doubled (R85, R86). -/
theorem stuff_channel : stuff Config.channel = [Config.channel] := rfl

/-- The two bytes of a checksum, put together big-endian, are the checksum (R31). -/
theorem bigEndian_highByte_lowByte (c : Word) : bigEndian (highByte c) (lowByte c) = c := by
  apply BitVec.eq_of_getLsbD_eq
  intro i hi
  simp only [bigEndian, highByte, lowByte, BitVec.getLsbD_or, BitVec.getLsbD_shiftLeft, BitVec.getLsbD_setWidth,
    BitVec.getLsbD_extractLsb']
  by_cases h8 : i < 8
  · simp [h8, hi]
  · have h1 : i - 8 < 8 := by omega
    have h2 : i - 8 < 16 := by omega
    have h3 : 8 + (i - 8) = i := by omega
    simp [h8, hi, h1, h2, h3]

end Sys2Proof.Machine
end

