-- ==== Sys2Proof/Laws/State.lean ====
section
/-! SUPPORT. One lemma per field per update of the state, true by rfl, so that no later proof unfolds a record update. -/

namespace Sys2Proof.Machine

section
variable (s : State) (e : Block × Response) (o : HostOutput) (t : PacketType) (sq : BitVec 3) (rest : List Byte)
variable (w : Word) (inputs : List Input) (n : Nat)

/-! ## Ending a command -/

@[simp] theorem State.complete_block : (s.complete e).block = e.1 := rfl
@[simp] theorem State.complete_env : (s.complete e).env = s.env := rfl
@[simp] theorem State.complete_inputs : (s.complete e).ports.inputs = s.ports.inputs := rfl
@[simp] theorem State.complete_rxIn : (s.complete e).ports.rxIn = s.ports.rxIn := rfl
@[simp] theorem State.complete_resp : (s.complete e).ports.resp = s.ports.resp ++ [e.2] := rfl
@[simp] theorem State.complete_typeSeqRead : (s.complete e).ports.typeSeqRead = s.ports.typeSeqRead := rfl
@[simp] theorem State.complete_txTaken : (s.complete e).ports.txTaken = s.ports.txTaken := rfl
@[simp] theorem State.complete_host : (s.complete e).ports.host = s.ports.host := rfl

/-! ## Outputs of the environment -/

@[simp] theorem State.output_block : (s.output o).block = s.block := rfl
@[simp] theorem State.output_env : (s.output o).env = s.env := rfl
@[simp] theorem State.output_inputs : (s.output o).ports.inputs = s.ports.inputs := rfl
@[simp] theorem State.output_rxIn : (s.output o).ports.rxIn = s.ports.rxIn := rfl
@[simp] theorem State.output_resp : (s.output o).ports.resp = s.ports.resp := rfl
@[simp] theorem State.output_typeSeqRead : (s.output o).ports.typeSeqRead = s.ports.typeSeqRead := rfl
@[simp] theorem State.output_txTaken : (s.output o).ports.txTaken = s.ports.txTaken := rfl
@[simp] theorem State.output_host : (s.output o).ports.host = s.ports.host ++ [o] := rfl

/-! ## The typeSeq codec -/

@[simp] theorem State.readTypeSeq_block : (s.readTypeSeq t sq).block = s.block := rfl
@[simp] theorem State.readTypeSeq_env : (s.readTypeSeq t sq).env = s.env := rfl
@[simp] theorem State.readTypeSeq_inputs : (s.readTypeSeq t sq).ports.inputs = s.ports.inputs := rfl
@[simp] theorem State.readTypeSeq_rxIn : (s.readTypeSeq t sq).ports.rxIn = s.ports.rxIn := rfl
@[simp] theorem State.readTypeSeq_resp : (s.readTypeSeq t sq).ports.resp = s.ports.resp := rfl
@[simp] theorem State.readTypeSeq_typeSeqRead :
    (s.readTypeSeq t sq).ports.typeSeqRead = s.ports.typeSeqRead ++ [(t, sq)] := rfl
@[simp] theorem State.readTypeSeq_txTaken : (s.readTypeSeq t sq).ports.txTaken = s.ports.txTaken := rfl
@[simp] theorem State.readTypeSeq_host : (s.readTypeSeq t sq).ports.host = s.ports.host := rfl

/-! ## Taking an input -/

@[simp] theorem State.popInput_block : s.popInput.block = s.block := rfl
@[simp] theorem State.popInput_env : s.popInput.env = s.env := rfl
@[simp] theorem State.popInput_inputs : s.popInput.ports.inputs = s.ports.inputs.tail := rfl
@[simp] theorem State.popInput_rxIn : s.popInput.ports.rxIn = s.ports.rxIn := rfl
@[simp] theorem State.popInput_resp : s.popInput.ports.resp = s.ports.resp := rfl
@[simp] theorem State.popInput_typeSeqRead : s.popInput.ports.typeSeqRead = s.ports.typeSeqRead := rfl
@[simp] theorem State.popInput_txTaken : s.popInput.ports.txTaken = s.ports.txTaken := rfl
@[simp] theorem State.popInput_host : s.popInput.ports.host = s.ports.host := rfl
@[simp] theorem State.withRxIn_block : (s.withRxIn rest).block = s.block := rfl
@[simp] theorem State.withRxIn_env : (s.withRxIn rest).env = s.env := rfl
@[simp] theorem State.withRxIn_inputs : (s.withRxIn rest).ports.inputs = s.ports.inputs := rfl
@[simp] theorem State.withRxIn_rxIn : (s.withRxIn rest).ports.rxIn = rest := rfl
@[simp] theorem State.withRxIn_resp : (s.withRxIn rest).ports.resp = s.ports.resp := rfl
@[simp] theorem State.withRxIn_typeSeqRead : (s.withRxIn rest).ports.typeSeqRead = s.ports.typeSeqRead := rfl
@[simp] theorem State.withRxIn_txTaken : (s.withRxIn rest).ports.txTaken = s.ports.txTaken := rfl
@[simp] theorem State.withRxIn_host : (s.withRxIn rest).ports.host = s.ports.host := rfl
@[simp] theorem State.withInputs_block : (s.withInputs inputs).block = s.block := rfl
@[simp] theorem State.withInputs_env : (s.withInputs inputs).env = s.env := rfl
@[simp] theorem State.withInputs_inputs : (s.withInputs inputs).ports.inputs = inputs := rfl
@[simp] theorem State.withInputs_rxIn : (s.withInputs inputs).ports.rxIn = s.ports.rxIn := rfl
@[simp] theorem State.withInputs_resp : (s.withInputs inputs).ports.resp = s.ports.resp := rfl
@[simp] theorem State.withInputs_typeSeqRead : (s.withInputs inputs).ports.typeSeqRead = s.ports.typeSeqRead := rfl
@[simp] theorem State.withInputs_txTaken : (s.withInputs inputs).ports.txTaken = s.ports.txTaken := rfl
@[simp] theorem State.withInputs_host : (s.withInputs inputs).ports.host = s.ports.host := rfl

/-! ## Signals -/

@[simp] theorem takeTx_block : (takeTx n s).block = { s.block with txOut := s.block.txOut.drop n } := rfl
@[simp] theorem takeTx_env : (takeTx n s).env = s.env := rfl
@[simp] theorem takeTx_ports :
    (takeTx n s).ports = { s.ports with txTaken := s.ports.txTaken ++ s.block.txOut.take n } := rfl
@[simp] theorem offerRx_block : (offerRx rest s).block = s.block := rfl
@[simp] theorem offerRx_env : (offerRx rest s).env = s.env := rfl
@[simp] theorem offerRx_ports : (offerRx rest s).ports = { s.ports with rxIn := s.ports.rxIn ++ rest } := rfl
@[simp] theorem resetBlock_block : (resetBlock s).block = Block.reset := rfl
@[simp] theorem resetBlock_env : (resetBlock s).env = s.env := rfl
@[simp] theorem resetBlock_ports :
    (resetBlock s).ports = { s.ports with txTaken := s.ports.txTaken ++ s.block.txOut } := by
  simp [resetBlock]

@[simp] theorem State.whileWaiting_block (g : Signal) : (s.whileWaiting w inputs g).block = s.block := by
  cases g <;> rfl
@[simp] theorem State.whileWaiting_env (g : Signal) : (s.whileWaiting w inputs g).env = s.env := by
  cases g <;> rfl
@[simp] theorem State.whileWaiting_txTaken (g : Signal) :
    (s.whileWaiting w inputs g).ports.txTaken = s.ports.txTaken := by
  cases g <;> rfl

end

/-! ## The block -/

section
variable (b : Block) (bytes : List Byte) (x : Byte)

@[simp] theorem Block.emit_crcAcc : (b.emit bytes).crcAcc = b.crcAcc := rfl
@[simp] theorem Block.emit_txCrc : (b.emit bytes).txCrc = b.txCrc := rfl
@[simp] theorem Block.emit_rxLen : (b.emit bytes).rxLen = b.rxLen := rfl
@[simp] theorem Block.emit_encPhase : (b.emit bytes).encPhase = b.encPhase := rfl
@[simp] theorem Block.emit_rxOvr : (b.emit bytes).rxOvr = b.rxOvr := rfl
@[simp] theorem Block.emit_rxBuf : (b.emit bytes).rxBuf = b.rxBuf := rfl
@[simp] theorem Block.emit_txOut : (b.emit bytes).txOut = b.txOut ++ bytes := rfl

@[simp] theorem Block.put_crcAcc : (b.put x).crcAcc = b.crcAcc := rfl
@[simp] theorem Block.put_txCrc : (b.put x).txCrc = fold b.txCrc x := rfl
@[simp] theorem Block.put_rxLen : (b.put x).rxLen = b.rxLen := rfl
@[simp] theorem Block.put_encPhase : (b.put x).encPhase = b.encPhase := rfl
@[simp] theorem Block.put_rxOvr : (b.put x).rxOvr = b.rxOvr := rfl
@[simp] theorem Block.put_rxBuf : (b.put x).rxBuf = b.rxBuf := rfl
@[simp] theorem Block.put_txOut : (b.put x).txOut = b.txOut ++ stuff x := rfl

@[simp] theorem Block.clearRx_crcAcc : b.clearRx.crcAcc = b.crcAcc := rfl
@[simp] theorem Block.clearRx_txCrc : b.clearRx.txCrc = b.txCrc := rfl
@[simp] theorem Block.clearRx_rxLen : b.clearRx.rxLen = 0 := rfl
@[simp] theorem Block.clearRx_encPhase : b.clearRx.encPhase = b.encPhase := rfl
@[simp] theorem Block.clearRx_rxOvr : b.clearRx.rxOvr = false := rfl
@[simp] theorem Block.clearRx_rxBuf : b.clearRx.rxBuf = [] := rfl
@[simp] theorem Block.clearRx_txOut : b.clearRx.txOut = b.txOut := rfl

end

/-- MAX_FRAME as a numeral (R6). -/
theorem maxFrame_eq : Config.maxFrame = 512 := rfl

end Sys2Proof.Machine
end

