-- ==== Sys2Proof/Laws/Memory.lean ====
section
/-! SUPPORT. The laws of the byte memory: read after write, every write keeps the canonical form, and what a run of writes
and a run of reads do. They are stated through Memory.read, so that no later proof unfolds the list. -/

namespace Sys2Proof.Machine

variable (m : Memory)

/-! ## One byte -/

@[simp] theorem Memory.read_nil (a : Nat) : Memory.read [] a = none := rfl

/-- Read after write: the written offset gives the value written, every other offset what it gave before. -/
theorem Memory.read_write (a c : Nat) (v : Byte) :
    (m.write a v).read c = if a = c then some v else m.read c := by
  induction m with
  | nil => rfl
  | cons cell m ih =>
    obtain ⟨b, w⟩ := cell
    by_cases hlt : a < b
    · simp [Memory.write, hlt, Memory.read]
    · by_cases heq : a = b
      · subst heq
        by_cases hc : a = c <;> simp [Memory.write, Memory.read, hc]
      · by_cases hb : b = c
        · subst hb
          simp [Memory.write, hlt, heq, Memory.read]
        · simp [Memory.write, hlt, heq, Memory.read, hb, ih]

@[simp] theorem Memory.read_write_same (a : Nat) (v : Byte) : (m.write a v).read a = some v := by
  simp [Memory.read_write]

theorem Memory.read_write_other {a c : Nat} (h : a ≠ c) (v : Byte) : (m.write a v).read c = m.read c := by
  simp [Memory.read_write, h]

/-! ## The canonical form -/

/-- A canonical memory with its first cell taken off: what the rest and the first offset satisfy. -/
theorem Memory.wf_cons (a : Nat) (v : Byte) :
    Memory.wf ((a, v) :: m) = true ↔
      a < Config.maxFrame ∧ m.wf = true ∧ ∀ c ∈ m.head?, a < c.1 := by
  cases m with
  | nil => simp [Memory.wf]
  | cons cell m =>
    obtain ⟨b, w⟩ := cell
    have bound : Memory.wf ((b, w) :: m) = true → b < Config.maxFrame := by
      cases m with
      | nil => simp [Memory.wf]
      | cons cell' m =>
        intro h
        have key : ∀ (n : Memory) (x : Host.Cell), Memory.wf (x :: n) = true → x.1 < Config.maxFrame := by
          intro n
          induction n with
          | nil => intro x h; simpa [Memory.wf] using h
          | cons y n ih =>
            intro x h
            have h' : x.1 < y.1 ∧ Memory.wf (y :: n) = true := by simpa [Memory.wf] using h
            exact Nat.lt_trans h'.1 (ih y h'.2)
        exact key _ _ h
    constructor
    · intro h
      have h' : a < b ∧ Memory.wf ((b, w) :: m) = true := by simpa [Memory.wf] using h
      exact ⟨Nat.lt_trans h'.1 (bound h'.2), h'.2, by simpa using h'.1⟩
    · rintro ⟨-, hwf, hhead⟩
      simp only [List.head?_cons, Option.mem_def, Option.some.injEq, forall_eq'] at hhead
      simp [Memory.wf, hwf, hhead]

/-- The first cell after a write is the old first cell or the written one. -/
theorem Memory.head_write (a : Nat) (v : Byte) :
    ∀ c ∈ (m.write a v).head?, c.1 = a ∨ ∃ d ∈ m.head?, c.1 = d.1 := by
  cases m with
  | nil => simp [Memory.write]
  | cons cell m =>
    obtain ⟨b, w⟩ := cell
    simp only [Memory.write]
    split
    · simp
    · split <;> simp

/-- Every write inside the 512 locations keeps the canonical form. -/
theorem Memory.wf_write {a : Nat} (ha : a < Config.maxFrame) (v : Byte) (h : m.wf = true) : (m.write a v).wf = true := by
  induction m with
  | nil => simp [Memory.write, Memory.wf, ha]
  | cons cell m ih =>
    obtain ⟨b, w⟩ := cell
    have h' := (Memory.wf_cons m b w).1 h
    simp only [Memory.write]
    split
    · rename_i hlt
      exact (Memory.wf_cons _ a v).2 ⟨ha, h, by simpa using hlt⟩
    · split
      · rename_i heq
        subst heq
        exact (Memory.wf_cons _ a v).2 h'
      · rename_i hge hne
        refine (Memory.wf_cons _ b w).2 ⟨h'.1, ih h'.2.1, fun c hc => ?_⟩
        obtain hca | ⟨d, hd, hcd⟩ := Memory.head_write m a v c hc
        · omega
        · have := h'.2.2 d hd
          omega

/-! ## Runs of bytes -/

/-- What every offset reads after a run of writes. -/
theorem Memory.read_writeBytes (bytes : List Byte) (a c : Nat) :
    (m.writeBytes a bytes).read c = if a ≤ c ∧ c < a + bytes.length then bytes[c - a]? else m.read c := by
  induction bytes generalizing m a with
  | nil =>
    have hno : ¬(a ≤ c ∧ c < a + ([] : List Byte).length) := by
      simp only [List.length_nil]
      omega
    rw [if_neg hno]
    rfl
  | cons b bs ih =>
    rw [Memory.writeBytes, ih, Memory.read_write]
    simp only [List.length_cons]
    by_cases hac : a = c
    · subst hac
      have h1 : ¬(a + 1 ≤ a ∧ a < a + 1 + bs.length) := by omega
      have h2 : a ≤ a ∧ a < a + (bs.length + 1) := by omega
      simp [h2]
    · by_cases hin : a + 1 ≤ c ∧ c < a + 1 + bs.length
      · have h2 : a ≤ c ∧ c < a + (bs.length + 1) := by omega
        have h3 : c - a = (c - (a + 1)) + 1 := by omega
        rw [if_pos hin, if_pos h2, h3, List.getElem?_cons_succ]
      · have h2 : ¬(a ≤ c ∧ c < a + (bs.length + 1)) := by omega
        rw [if_neg hin, if_neg h2, if_neg hac]

/-- A run of writes inside the 512 locations keeps the canonical form. -/
theorem Memory.wf_writeBytes (bytes : List Byte) {a : Nat} (ha : a + bytes.length ≤ Config.maxFrame) (h : m.wf = true) :
    (m.writeBytes a bytes).wf = true := by
  induction bytes generalizing m a with
  | nil => exact h
  | cons b bs ih =>
    simp only [List.length_cons] at ha
    exact ih (m.write a b) (by omega) (Memory.wf_write m (by omega) b h)

/-- A run of reads gives a list exactly when it is the list of the bytes read, each holding a value. -/
theorem Memory.readBytes_eq_some (a n : Nat) (l : List Byte) :
    m.readBytes a n = some l ↔ l.length = n ∧ ∀ k, k < n → m.read (a + k) = l[k]? := by
  induction n generalizing a l with
  | zero =>
    simp only [Memory.readBytes, Option.some.injEq, Nat.not_lt_zero, false_implies, implies_true, and_true]
    rw [eq_comm, List.length_eq_zero_iff]
  | succ n ih =>
    constructor
    · intro h
      simp only [Memory.readBytes] at h
      split at h
      · rename_i b bs hb hbs
        obtain ⟨hlen, hget⟩ := (ih (a + 1) bs).1 hbs
        cases h
        refine ⟨by simp [hlen], fun k hk => ?_⟩
        cases k with
        | zero => simpa using hb
        | succ k =>
          have := hget k (by omega)
          rw [List.getElem?_cons_succ, ← this]
          congr 1
          omega
      · cases h
    · rintro ⟨hlen, hget⟩
      cases l with
      | nil => simp at hlen
      | cons b bs =>
        have h0 : m.read a = some b := by simpa using hget 0 (by omega)
        have hbs : m.readBytes (a + 1) n = some bs := by
          refine (ih (a + 1) bs).2 ⟨by simpa using hlen, fun k hk => ?_⟩
          have := hget (k + 1) (by omega)
          rw [List.getElem?_cons_succ] at this
          rw [← this]
          congr 1
          omega
        simp [Memory.readBytes, h0, hbs]

/-- A run of reads gives a list exactly when every offset of it holds a value. -/
theorem Memory.readBytes_isSome (a n : Nat) :
    (m.readBytes a n).isSome = true ↔ ∀ k, k < n → (m.read (a + k)).isSome = true := by
  induction n generalizing a with
  | zero => simp [Memory.readBytes]
  | succ n ih =>
    have hsplit : (m.readBytes a (n + 1)).isSome = true ↔
        (m.read a).isSome = true ∧ (m.readBytes (a + 1) n).isSome = true := by
      simp only [Memory.readBytes]
      cases m.read a <;> cases m.readBytes (a + 1) n <;> simp
    rw [hsplit, ih]
    constructor
    · rintro ⟨h0, h⟩ k hk
      cases k with
      | zero => simpa using h0
      | succ k =>
        have := h k (by omega)
        rwa [show a + 1 + k = a + (k + 1) by omega] at this
    · intro h
      refine ⟨by simpa using h 0 (by omega), fun k hk => ?_⟩
      have := h (k + 1) (by omega)
      rwa [show a + (k + 1) = a + 1 + k by omega] at this

/-- A run of reads depends on nothing but the bytes it reads. -/
theorem Memory.readBytes_congr {m m' : Memory} {a n : Nat} (h : ∀ k, k < n → m.read (a + k) = m'.read (a + k)) :
    m.readBytes a n = m'.readBytes a n := by
  induction n generalizing a with
  | zero => rfl
  | succ n ih =>
    have h0 : m.read a = m'.read a := by simpa using h 0 (by omega)
    have htail : m.readBytes (a + 1) n = m'.readBytes (a + 1) n := by
      refine ih fun k hk => ?_
      have := h (k + 1) (by omega)
      rwa [show a + (k + 1) = a + 1 + k by omega] at this
    simp only [Memory.readBytes, h0, htail]

/-- After a run of writes right behind a readable run, the whole run reads as the two together. -/
theorem Memory.readBytes_writeBytes {n : Nat} {l : List Byte} (h : m.readBytes 0 n = some l) (bytes : List Byte) :
    (m.writeBytes n bytes).readBytes 0 (n + bytes.length) = some (l ++ bytes) := by
  obtain ⟨hlen, hget⟩ := (Memory.readBytes_eq_some m 0 n l).1 h
  refine (Memory.readBytes_eq_some _ _ _ _).2 ⟨by simp [hlen], fun k hk => ?_⟩
  rw [Nat.zero_add, Memory.read_writeBytes]
  by_cases hkn : n ≤ k
  · rw [if_pos ⟨hkn, hk⟩, List.getElem?_append_right (by omega), hlen]
  · have hno : ¬(n ≤ k ∧ k < n + bytes.length) := by omega
    have := hget k (by omega)
    rw [Nat.zero_add] at this
    rw [if_neg hno, this, List.getElem?_append_left (by omega)]

/-- Reset memory is canonical. -/
theorem reset_memory_wf : State.reset.block.rxBuf.wf = true := rfl

end Sys2Proof.Machine
end

