-- ==== Sys2Proof/Laws/Exec.lean ====
section
/-! SUPPORT. What exec, a step, a delivery and an event can do, said once: one lemma per shared operation, cited instead of
unfolding it. -/

namespace Sys2Proof.Machine

/-! ## exec -/

/-- What a command does to the block and answers; none where it would read an offset that holds no value, and for the
typeSeq rows, which are no commands. -/
def commandEffect (i : Instr) (b : Block) : Option (Block × Response) :=
  match i with
  | .crcClr => some (crcClrEffect b)
  | .crcFold x => some (crcFoldEffect x b)
  | .crcRd => some (crcRdEffect b)
  | .encStart t sq => some (encStartEffect t sq b)
  | .encData x => some (encDataEffect x b)
  | .encEnd => some (encEndEffect b)
  | .rxPush bytes => some (rxPushEffect bytes b)
  | .rxExtract c => rxExtractEffect c b
  | .rxValid => rxValidEffect b
  | .rxClear => some (rxClearEffect b)
  | .status => some (statusEffect b)
  | .typeSeqAcknowledge _ => none
  | .typeSeqDisconnect _ => none
  | .typeSeqLinkRequest _ => none
  | .typeSeqData _ => none

@[simp] theorem State.completeRead_some (s : State) (e : Block × Response) :
    s.completeRead (some e) = .next (s.complete e) := rfl

@[simp] theorem State.completeRead_none (s : State) : s.completeRead none = .fault .rxBufNoValue := rfl

/-- A command does its effect on the block, and ends with its response. -/
theorem exec_command {i : Instr} (h : isCommand i = true) (s : State) :
    exec i s = s.completeRead (commandEffect i s.block) := by
  cases i <;> first | rfl | cases h

/-- A typeSeq row reads out its fields. -/
theorem exec_typeSeq (t : PacketType) (sq : BitVec 3) (s : State) :
    exec (typeSeqInstr t sq) s = .next (s.readTypeSeq t sq) := by
  cases t <;> rfl

/-- A row that is no command is a typeSeq row. -/
theorem isCommand_false {i : Instr} (h : isCommand i = false) : ∃ t sq, i = typeSeqInstr t sq := by
  cases i with
  | typeSeqAcknowledge sq => exact ⟨.acknowledge, sq, rfl⟩
  | typeSeqDisconnect sq => exact ⟨.disconnect, sq, rfl⟩
  | typeSeqLinkRequest sq => exact ⟨.linkRequest, sq, rfl⟩
  | typeSeqData sq => exact ⟨.data, sq, rfl⟩
  | _ => cases h

/-- If exec answers next, a command did its effect or a typeSeq row read out its fields. -/
theorem exec_next_cases {i : Instr} {s t : State} (h : exec i s = .next t) :
    (isCommand i = true ∧ ∃ e, commandEffect i s.block = some e ∧ t = s.complete e) ∨
    (∃ ty sq, i = typeSeqInstr ty sq ∧ t = s.readTypeSeq ty sq) := by
  cases hc : isCommand i with
  | true =>
    rw [exec_command hc] at h
    cases he : commandEffect i s.block with
    | none => simp [he] at h
    | some e =>
      rw [he, State.completeRead_some] at h
      cases h
      exact .inl ⟨rfl, e, rfl, rfl⟩
  | false =>
    obtain ⟨ty, sq, rfl⟩ := isCommand_false hc
    rw [exec_typeSeq] at h
    cases h
    exact .inr ⟨ty, sq, rfl, rfl⟩

/-- exec never refuses: no instruction is left unmodelled. -/
theorem exec_not_refused (i : Instr) (s : State) (r : Refusal) : exec i s ≠ .refused r := by
  cases hc : isCommand i with
  | true =>
    rw [exec_command hc]
    cases commandEffect i s.block <;> simp
  | false =>
    obtain ⟨ty, sq, rfl⟩ := isCommand_false hc
    simp [exec_typeSeq]

/-! ## The effects -/

theorem rxPushEffect_overrun {bytes : List Byte} {b : Block} (h : Config.maxFrame < b.rxLen.toNat + bytes.length) :
    rxPushEffect bytes b = ({ b with rxOvr := true }, .overrun) := by
  simp [rxPushEffect, overruns, h]

theorem rxPushEffect_accepted {bytes : List Byte} {b : Block} (h : b.rxLen.toNat + bytes.length ≤ Config.maxFrame) :
    rxPushEffect bytes b =
      ({ b with
          rxBuf := b.rxBuf.writeBytes b.rxLen.toNat bytes
          rxLen := BitVec.ofNat 10 (b.rxLen.toNat + bytes.length) }, .ok) := by
  have hno : ¬ Config.maxFrame < b.rxLen.toNat + bytes.length := by omega
  simp [rxPushEffect, overruns, hno]

/-- `rx_len` after an accepted push: the sum does not wrap (R78). -/
theorem rxLen_push {b : Block} {n : Nat} (h : b.rxLen.toNat + n ≤ Config.maxFrame) :
    (BitVec.ofNat 10 (b.rxLen.toNat + n)).toNat = b.rxLen.toNat + n := by
  have hmax : Config.maxFrame = 512 := rfl
  rw [BitVec.toNat_ofNat]
  exact Nat.mod_eq_of_lt (by omega)

theorem rxExtractEffect_some {c : Bool} {b : Block} {B : List Byte} (h : b.rxBytes = some B) :
    rxExtractEffect c b = some (consumeOn c (extract B) b, extract B) := by
  simp [rxExtractEffect, h]

theorem rxValidEffect_some {b : Block} {B : List Byte} (h : b.rxBytes = some B) :
    rxValidEffect b = some (b, .okValid ((extract B).status == .ok)) := by
  simp [rxValidEffect, h]

/-! ## The extraction -/

/-- What an extraction has found when it is not NOFRAME: a long enough buffer that begins with the preamble, and a first
pair far enough from both ends (R116 to R118). -/
theorem extract_cases (B : List Byte) :
    extract B = .noFrame ∨
    ∃ p, Config.minFrame ≤ B.length ∧ B.take 3 = Config.preamble ∧ findPair B = some p ∧ p + 4 ≤ B.length ∧ 5 ≤ p ∧
      extract B = extractAt B p := by
  by_cases hn : B.length < Config.minFrame
  · exact .inl (by simp [extract, hn])
  · by_cases hp : B.take 3 = Config.preamble
    · cases hf : findPair B with
      | none => exact .inl (by simp [extract, hn, hp, hf])
      | some p =>
        by_cases h4 : p + 4 ≤ B.length
        · by_cases h5 : 5 ≤ p
          · exact .inr ⟨p, by omega, hp, rfl, h4, h5,
              by simp [extract, hn, hp, hf, show ¬p + 4 > B.length by omega, show ¬p < 5 by omega]⟩
          · exact .inl (by simp [extract, hn, hp, hf, show p < 5 by omega])
        · exact .inl (by simp [extract, hn, hp, hf, show p + 4 > B.length by omega])
    · exact .inl (by simp [extract, hn, hp])

/-- How the last steps answer: a checksum that differs, a reserved typeSeq, or a Message (R119 to R121). -/
theorem extractAt_cases (B : List Byte) (p : Nat) :
    (∃ e, e ≠ crcScan (p - 3) Config.crcInit (B.drop 3) ∧
      extractAt B p = .corrupt (crcScan (p - 3) Config.crcInit (B.drop 3)) e) ∨
    (typeSeqType (byteAt B 4) = none ∧ extractAt B p = .badType (byteAt B 4)) ∨
    ∃ t, typeSeqType (byteAt B 4) = some t ∧
      extractAt B p = .okMessage
        { type := t, seq := typeSeqSeq (byteAt B 4),
          payload := unstuff (sublist B (if byteAt B 4 = Config.esc then 6 else 5) p) } := by
  by_cases hc : crcScan (p - 3) Config.crcInit (B.drop 3) = bigEndian (byteAt B (p + 2)) (byteAt B (p + 3))
  · cases ht : typeSeqType (byteAt B 4) with
    | none => exact .inr (.inl ⟨rfl, by simp [extractAt, hc, extractMessage, ht]⟩)
    | some t => exact .inr (.inr ⟨t, rfl, by simp [extractAt, hc, extractMessage, ht]⟩)
  · exact .inl ⟨_, fun h => hc h.symm, by simp [extractAt, hc]⟩

/-- An OK from the extraction is a Message. -/
theorem extract_status_ok {B : List Byte} : (extract B).status = .ok ↔ ∃ m, extract B = .okMessage m := by
  obtain h | ⟨p, -, -, -, -, -, h⟩ := extract_cases B
  · simp [h, Response.status]
  · obtain ⟨e, -, h'⟩ | ⟨-, h'⟩ | ⟨t, -, h'⟩ := extractAt_cases B p <;> simp [h, h', Response.status]

/-! ## The receive invariant -/

/-- Under the receive invariant the whole buffer holds values, and is as long as `rx_len` says. -/
theorem RxInv.rxBytes {b : Block} (h : RxInv b) : ∃ B, b.rxBytes = some B ∧ B.length = b.rxLen.toNat := by
  have hs : b.rxBytes.isSome = true :=
    (Memory.readBytes_isSome _ _ _).2 fun k hk => (h.defined _).2 (by omega)
  obtain ⟨B, hB⟩ := Option.isSome_iff_exists.1 hs
  exact ⟨B, hB, ((Memory.readBytes_eq_some _ _ _ _).1 hB).1⟩

/-- The receive invariant speaks of `rx_len` and `rx_buf` alone. -/
theorem RxInv.congr {b c : Block} (h : RxInv b) (hlen : c.rxLen = b.rxLen) (hbuf : c.rxBuf = b.rxBuf) : RxInv c := by
  refine ⟨?_, ?_, ?_⟩
  · rw [hlen]; exact h.len_le
  · rw [hbuf]; exact h.wf
  · rw [hlen, hbuf]; exact h.defined

theorem RxInv.clearRx (b : Block) : RxInv b.clearRx :=
  ⟨by simp, rfl, fun a => by simp⟩

/-- RX.PUSH keeps the receive invariant, accepted or not. -/
theorem RxInv.push {b : Block} (h : RxInv b) (bytes : List Byte) : RxInv (rxPushEffect bytes b).1 := by
  by_cases hov : Config.maxFrame < b.rxLen.toNat + bytes.length
  · rw [rxPushEffect_overrun hov]
    exact h.congr rfl rfl
  · have hfit : b.rxLen.toNat + bytes.length ≤ Config.maxFrame := by omega
    rw [rxPushEffect_accepted hfit]
    refine ⟨?_, ?_, fun a => ?_⟩
    · simpa only [rxLen_push hfit] using hfit
    · exact Memory.wf_writeBytes _ _ hfit h.wf
    · simp only [rxLen_push hfit, Memory.read_writeBytes]
      by_cases hin : b.rxLen.toNat ≤ a ∧ a < b.rxLen.toNat + bytes.length
      · have hget : (bytes[a - b.rxLen.toNat]?).isSome = true := by
          rw [List.getElem?_eq_getElem (by omega)]
          rfl
        simp [hin, hget]
      · rw [if_neg hin, h.defined]
        omega

/-! ## A step -/

/-- No signal is pending exactly when every pending input is something else. -/
theorem firstSignal_eq_none {l : List Input} : firstSignal l = none ↔ ∀ g, .signal g ∉ l := by
  induction l with
  | nil => simp [firstSignal]
  | cons i is ih =>
    cases i with
    | signal g => simpa [firstSignal] using ⟨g, fun h => absurd rfl h⟩
    | cmd w => simpa [firstSignal] using ih
    | typeSeq b => simpa [firstSignal] using ih
    | event e => simpa [firstSignal] using ih

/-- The first signal behind inputs that are none is found, and these stay with what is behind it. -/
theorem firstSignal_append {before : List Input} (h : ∀ g, .signal g ∉ before) (g : Signal) (after : List Input) :
    firstSignal (before ++ .signal g :: after) = some (g, before ++ after) := by
  induction before with
  | nil => rfl
  | cons i is ih =>
    have hi := ih fun g hg => h g (List.mem_cons_of_mem i hg)
    cases i with
    | signal g' => exact absurd List.mem_cons_self (h g')
    | cmd w => simp [firstSignal, hi]
    | typeSeq b => simp [firstSignal, hi]
    | event e => simp [firstSignal, hi]

/-- What was emitted, taken or not, is the same before and after a signal. -/
theorem signalEffect_emitted (g : Signal) (s : State) :
    (signalEffect g s).ports.txTaken ++ (signalEffect g s).block.txOut = s.ports.txTaken ++ s.block.txOut := by
  cases g with
  | reset => simp [signalEffect, Block.reset]
  | takeTx n => simp [signalEffect]
  | rxIn bytes => rfl

/-- A signal leaves the environment alone. -/
@[simp] theorem signalEffect_env (g : Signal) (s : State) : (signalEffect g s).env = s.env := by
  cases g <;> rfl

/-- What a step that answers next has done, by the input it took. -/
theorem step_next_cases {s t : State} (h : step s = .next t) :
    t = s ∨
    (∃ w inputs i rest, s.ports.inputs = .cmd w :: inputs ∧ decode w s.ports.rxIn = .instr i rest ∧
      exec i (s.popInput.withRxIn rest) = .next t) ∨
    (∃ w inputs why, s.ports.inputs = .cmd w :: inputs ∧ decode w s.ports.rxIn = .reserved why ∧
      t = s.popInput.complete (badCmdEffect s.block)) ∨
    (∃ b inputs i, s.ports.inputs = .typeSeq b :: inputs ∧ decodeTypeSeq b = some i ∧ exec i s.popInput = .next t) ∨
    (∃ e inputs, s.ports.inputs = .event e :: inputs ∧ handleEvent e s.popInput = .next t) ∨
    (∃ g inputs, s.ports.inputs = .signal g :: inputs ∧ t = signalEffect g s.popInput) ∨
    (∃ w inputs count g rest, s.ports.inputs = .cmd w :: inputs ∧ decode w s.ports.rxIn = .starved count ∧
      firstSignal inputs = some (g, rest) ∧ t = signalEffect g (s.whileWaiting w rest g)) := by
  unfold step stepInput at h
  split at h
  · cases h; exact .inl rfl
  · rename_i w inputs hin
    unfold stepCommand at h
    split at h
    · rename_i i rest hd
      exact .inr (.inl ⟨w, inputs, i, rest, hin, hd, h⟩)
    · rename_i why hd
      cases h
      exact .inr (.inr (.inl ⟨w, inputs, why, hin, hd, rfl⟩))
    · rename_i count hd
      unfold stepWaiting at h
      split at h
      · rename_i g rest hg
        cases h
        exact .inr (.inr (.inr (.inr (.inr (.inr ⟨w, inputs, count, g, rest, hin, hd, hg, rfl⟩)))))
      · cases h; exact .inl rfl
  · rename_i b inputs hin
    unfold stepTypeSeq at h
    split at h
    · rename_i i hd
      exact .inr (.inr (.inr (.inl ⟨b, inputs, i, hin, hd, h⟩)))
    · cases h
  · rename_i e inputs hin
    exact .inr (.inr (.inr (.inr (.inl ⟨e, inputs, hin, h⟩))))
  · rename_i g inputs hin
    cases h
    exact .inr (.inr (.inr (.inr (.inr (.inl ⟨g, inputs, hin, rfl⟩)))))

/-! ## A delivery and an event -/

/-- What DELIVER has done when it answers next: an overrun and nothing else, or an accepted push and then a consuming
extraction of the whole buffer. -/
theorem deliver_next_cases {chunk : List Byte} {s t : State} {r : Response} (h : deliver chunk s = .next (t, r)) :
    (Config.maxFrame < s.block.rxLen.toNat + chunk.length ∧ r = .overrun ∧
      t = s.complete ({ s.block with rxOvr := true }, .overrun)) ∨
    (s.block.rxLen.toNat + chunk.length ≤ Config.maxFrame ∧
      ∃ B, (rxPushEffect chunk s.block).1.rxBytes = some B ∧ r = extract B ∧
        t = (s.complete (rxPushEffect chunk s.block)).complete
          (consumeOn true (extract B) (rxPushEffect chunk s.block).1, extract B)) := by
  by_cases hov : Config.maxFrame < s.block.rxLen.toNat + chunk.length
  · simp only [deliver, rxPushEffect_overrun hov, Response.status, if_true] at h
    cases h
    exact .inl ⟨hov, rfl, rfl⟩
  · have hfit : s.block.rxLen.toNat + chunk.length ≤ Config.maxFrame := by omega
    have hst : (rxPushEffect chunk s.block).2.status ≠ .overrun := by
      rw [rxPushEffect_accepted hfit]
      simp [Response.status]
    simp only [deliver, if_neg hst, State.complete_block, rxExtractEffect] at h
    cases hB : (rxPushEffect chunk s.block).1.rxBytes with
    | none => simp [hB] at h
    | some B =>
      simp only [hB, Option.map_some] at h
      cases h
      exact .inr ⟨hfit, B, rfl, rfl, rfl⟩

/-- DELIVER completes wherever the receive invariant holds. -/
theorem deliver_completes (chunk : List Byte) {s : State} (h : RxInv s.block) :
    ∃ t r, deliver chunk s = .next (t, r) := by
  obtain ⟨B, hB, -⟩ := (h.push chunk).rxBytes
  simp only [deliver, State.complete_block, rxExtractEffect, hB, Option.map_some]
  split <;> exact ⟨_, _, rfl⟩

@[simp] theorem consumeOn_crcAcc (c : Bool) (r : Response) (b : Block) : (consumeOn c r b).crcAcc = b.crcAcc := by
  unfold consumeOn; split <;> rfl
@[simp] theorem consumeOn_txCrc (c : Bool) (r : Response) (b : Block) : (consumeOn c r b).txCrc = b.txCrc := by
  unfold consumeOn; split <;> rfl
@[simp] theorem consumeOn_encPhase (c : Bool) (r : Response) (b : Block) :
    (consumeOn c r b).encPhase = b.encPhase := by
  unfold consumeOn; split <;> rfl
@[simp] theorem consumeOn_txOut (c : Bool) (r : Response) (b : Block) : (consumeOn c r b).txOut = b.txOut := by
  unfold consumeOn; split <;> rfl

@[simp] theorem rxPushEffect_crcAcc (bytes : List Byte) (b : Block) : (rxPushEffect bytes b).1.crcAcc = b.crcAcc := by
  unfold rxPushEffect; split <;> rfl
@[simp] theorem rxPushEffect_txCrc (bytes : List Byte) (b : Block) : (rxPushEffect bytes b).1.txCrc = b.txCrc := by
  unfold rxPushEffect; split <;> rfl
@[simp] theorem rxPushEffect_encPhase (bytes : List Byte) (b : Block) :
    (rxPushEffect bytes b).1.encPhase = b.encPhase := by
  unfold rxPushEffect; split <;> rfl
@[simp] theorem rxPushEffect_txOut (bytes : List Byte) (b : Block) : (rxPushEffect bytes b).1.txOut = b.txOut := by
  unfold rxPushEffect; split <;> rfl

/-- A delivery leaves the environment, the pending inputs and the transmit side alone. -/
theorem deliver_frame {chunk : List Byte} {s t : State} {r : Response} (h : deliver chunk s = .next (t, r)) :
    t.env = s.env ∧ t.ports.inputs = s.ports.inputs ∧ t.ports.rxIn = s.ports.rxIn ∧
    t.ports.txTaken = s.ports.txTaken ∧ t.ports.host = s.ports.host ∧
    t.block.crcAcc = s.block.crcAcc ∧ t.block.txCrc = s.block.txCrc ∧ t.block.encPhase = s.block.encPhase ∧
    t.block.txOut = s.block.txOut := by
  obtain ⟨-, -, rfl⟩ | ⟨-, B, -, -, rfl⟩ := deliver_next_cases h <;> simp

/-- The end of the data-available handler changes the timer's arming and the outputs alone. -/
theorem onDelivered_frame (s : State) (r : Response) :
    (onDelivered s r).block = s.block ∧
    (onDelivered s r).env = { s.env with inactArmed := (onDelivered s r).env.inactArmed } ∧
    (onDelivered s r).ports = { s.ports with host := (onDelivered s r).ports.host } := by
  cases r <;> exact ⟨rfl, rfl, rfl⟩

/-! ## The encoder run by the environment -/

/-- ENC.DATA for each payload byte, in `BODY`: the bytes are folded and emitted stuffed, each with its OK. -/
theorem foldl_encData (payload : List Byte) (s : State) (h : s.block.encPhase = .body) :
    payload.foldl (fun s b => s.complete (encDataEffect b s.block)) s =
      { s with
        block := { s.block with
          txCrc := foldAll s.block.txCrc payload
          txOut := s.block.txOut ++ stuffAll payload }
        ports := { s.ports with resp := s.ports.resp ++ List.replicate payload.length .ok } } := by
  induction payload generalizing s with
  | nil => simp [foldAll, stuffAll]
  | cons b bs ih =>
    have hstep : s.complete (encDataEffect b s.block) = s.complete (s.block.put b, .ok) := by
      simp [encDataEffect, h]
    rw [List.foldl_cons, hstep, ih _ (by simpa using h)]
    simp [State.complete, Block.put, Block.emit, foldAll, stuffAll, List.replicate_succ]

end Sys2Proof.Machine
end

