-- ==== Sys2Proof/Laws/PerInstr.lean ====
section
/-! SUPPORT. One family of lemmas, a lemma per constructor of Instr: an instruction's encoding selects the instruction's
own row of R59, or is a typeSeq byte that is not reserved. -/

namespace Sys2Proof.Laws.EncodeSelectsRow

/-- The row of R59 an instruction belongs to; none for the typeSeq rows. -/
def rowOf : Instr → Option Op
  | .crcClr => some .crcClr
  | .crcFold _ => some .crcFold
  | .crcRd => some .crcRd
  | .encStart _ _ => some .encStart
  | .encData _ => some .encData
  | .encEnd => some .encEnd
  | .rxPush _ => some .rxPush
  | .rxExtract _ => some .rxExtract
  | .rxValid => some .rxValid
  | .rxClear => some .rxClear
  | .status => some .status
  | .typeSeqAcknowledge _ => none
  | .typeSeqDisconnect _ => none
  | .typeSeqLinkRequest _ => none
  | .typeSeqData _ => none

/-- The encoding lies in the row: the word selects it, or the byte has a type. -/
def inItsRow (i : Instr) : Bool :=
  match encode i with
  | .cmd w _ => (selectRow w).map (·.op) == rowOf i
  | .typeSeq b => rowOf i == none && (typeSeqType b).isSome

/-- The family's statement about one instruction. -/
abbrev Statement (i : Instr) : Prop := inItsRow i = true

/-- Every word `0x8000 | n` selects RX.PUSH, for every 10-bit count. -/
theorem push_words :
    ∀ n : BitVec 10, ((selectRow (0x8000 ||| n.setWidth 16)).map (·.op) == some Op.rxPush) = true := by
  decide +kernel

theorem crcClr : Statement .crcClr := by decide
theorem crcFold : ∀ b : Byte, Statement (.crcFold b) := by decide +kernel
theorem crcRd : Statement .crcRd := by decide
theorem encStart (t : PacketType) : ∀ sq : BitVec 3, Statement (.encStart t sq) := by cases t <;> decide +kernel
theorem encData : ∀ b : Byte, Statement (.encData b) := by decide +kernel
theorem encEnd : Statement .encEnd := by decide
theorem rxPush (bytes : List Byte) : Statement (.rxPush bytes) := push_words _
theorem rxExtract : ∀ c : Bool, Statement (.rxExtract c) := by decide
theorem rxValid : Statement .rxValid := by decide
theorem rxClear : Statement .rxClear := by decide
theorem status : Statement .status := by decide
theorem typeSeqAcknowledge : ∀ sq : BitVec 3, Statement (.typeSeqAcknowledge sq) := by decide
theorem typeSeqDisconnect : ∀ sq : BitVec 3, Statement (.typeSeqDisconnect sq) := by decide
theorem typeSeqLinkRequest : ∀ sq : BitVec 3, Statement (.typeSeqLinkRequest sq) := by decide
theorem typeSeqData : ∀ sq : BitVec 3, Statement (.typeSeqData sq) := by decide

end Sys2Proof.Laws.EncodeSelectsRow
end

