-- ==== Sys2Proof/Tests/Slice0.lean ====
section
/-! SUPPORT. Tests: ill-formed terms, words written out from the spec's encodings, one or two facts per instruction with
results from spec/95_test_vectors.md, and a witness for the hypotheses of every statement that has some. -/

namespace Sys2Proof.Tests

open Sys2Proof Sys2Proof.Machine

/-! ## Helpers -/

/-- The next state of an outcome, if it is one. -/
def next? : Host.Outcome State Fault Refusal → Option State
  | .next s => some s
  | .fault _ => none
  | .refused _ => none

/-- A block whose buffer holds `bytes`, as pushes from reset leave it. -/
def holding (bytes : List Byte) : Block := (rxPushEffect bytes Block.reset).1

/-- Reset, with another block. -/
def withBlock (b : Block) : State := { State.reset with block := b }

/-- Reset, with inputs and `rx_in` bytes pending. -/
def pending (inputs : List Input) (rxIn : List Byte) : State :=
  { State.reset with ports := { Ports.reset with inputs := inputs, rxIn := rxIn } }

/-- A block with an open frame: `ENC.START data, 1` from reset. -/
def inFrame : Block := (encStartEffect .data 1 Block.reset).1

/-- The frame V2 (95_test_vectors.md): data, sequence 1, "FILE". -/
def v2 : List Byte := [0x16, 0x10, 0x02, 0x01, 0x19, 0x46, 0x49, 0x4C, 0x45, 0x10, 0x03, 0x2D, 0xBE]

/-! ## WellFormed: its one check refuses an ill-formed term -/

/-- R59: the count can express 0 to 1023. -/
theorem test_wf_push_1024_refused : (Instr.rxPush (List.replicate 1024 0)).wf = false := by
  decide +kernel
theorem test_wf_push_1023 : (Instr.rxPush (List.replicate 1023 0)).wf = true := by
  decide +kernel

/-! ## Decoding, each word written out from R59's fields: op 15:12, z 11:10, arg 9:0 -/

theorem test_decode_crcClr : decode 0b0001_00_0000000000 [] = .instr .crcClr [] := by decide
theorem test_decode_crcFold : decode 0b0010_00_00_00010000 [] = .instr (.crcFold 0x10) [] := by decide
theorem test_decode_crcRd : decode 0b0011_00_0000000000 [] = .instr .crcRd [] := by decide
theorem test_decode_encStart : decode 0b0100_00_00000_11_001 [] = .instr (.encStart .data 1) [] := by decide
theorem test_decode_encData : decode 0b0101_00_00_01000110 [] = .instr (.encData 0x46) [] := by decide
theorem test_decode_encEnd : decode 0b0110_00_0000000000 [] = .instr .encEnd [] := by decide
theorem test_decode_rxPush :
    decode 0b1000_00_0000000010 [0x01, 0x19, 0x77] = .instr (.rxPush [0x01, 0x19]) [0x77] := by decide
theorem test_decode_rxExtract : decode 0b1001_00_0000000001 [] = .instr (.rxExtract true) [] := by decide
theorem test_decode_rxValid : decode 0b1010_00_0000000000 [] = .instr .rxValid [] := by decide
theorem test_decode_rxClear : decode 0b1011_00_0000000000 [] = .instr .rxClear [] := by decide
theorem test_decode_status : decode 0b1100_00_0000000000 [] = .instr .status [] := by decide
theorem test_decode_typeSeqAcknowledge : decodeTypeSeq 0b000_00_011 = some (.typeSeqAcknowledge 3) := by decide
theorem test_decode_typeSeqDisconnect : decodeTypeSeq 0b000_01_110 = some (.typeSeqDisconnect 6) := by decide
theorem test_decode_typeSeqLinkRequest : decodeTypeSeq 0b000_10_000 = some (.typeSeqLinkRequest 0) := by decide
theorem test_decode_typeSeqData : decodeTypeSeq 0b000_11_001 = some (.typeSeqData 1) := by decide
/-- V59: the reserved words. -/
theorem test_decode_reserved :
    ([0x0000, 0x7000, 0xD000, 0xE000, 0xFFFF, 0x1001, 0x3001, 0x6001, 0xA001, 0xB200, 0xC001, 0x4020, 0x2100, 0x5100,
      0x9002, 0x8400, 0x1400] : List Word).all (fun w => selectRow w == none) = true := by decide
/-- R59: the rows are disjoint; two rows differ in a bit both masks fix. -/
theorem test_rows_disjoint :
    opTable.Pairwise (fun r q => r.pattern &&& (r.mask &&& q.mask) ≠ q.pattern &&& (r.mask &&& q.mask)) := by decide
theorem test_decode_reserved_typeSeq : decodeTypeSeq 0x20 = none := by decide
theorem test_table_word_push : decodeTableWord 16 0x8003 = some (.rxPush [0, 0, 0]) := by decide
theorem test_table_word_typeSeq : decodeTableWord 8 0x1A = some (.typeSeqData 2) := by decide

/-! ## The step runs a placed word as the first instruction after reset -/

theorem test_step_placed_push :
    ((next? (step (State.reset.withFetchWord 16 0x8002))).map fun t => (t.block.rxBytes, t.ports.resp)) =
      some (some [0, 0], [.ok]) := by decide
theorem test_step_placed_typeSeq :
    ((next? (step (State.reset.withFetchWord 8 0x1F))).map (·.ports.typeSeqRead)) = some [(.data, 7)] := by decide
/-- V59: a reserved word answers BADCMD and leaves `rx_in` alone. -/
theorem test_step_reserved :
    ((next? (step (pending [.cmd 0x8400] [0x01]))).map fun t => (t.block, t.ports.rxIn, t.ports.resp)) =
      some (Block.reset, [0x01], [.badCmd]) := by decide

/-- R190: a reset behind an RX.PUSH that waits for its bytes is applied, and abandons it. -/
theorem test_reset_while_waiting :
    ((next? (step { pending [.cmd 0x8003, .signal .reset, .cmd 0xC000] [0x16] with block := inFrame })).map fun t =>
      (t.block, t.ports.inputs, t.ports.rxIn)) = some (Block.reset, [.cmd 0xC000], []) := by decide
/-- R61: the missing bytes reach a waiting RX.PUSH. -/
theorem test_rxIn_while_waiting :
    ((next? (step (pending [.cmd 0x8002, .signal (.rxIn [0x10])] [0x16]))).map fun t =>
      (t.block, t.ports.inputs, t.ports.rxIn)) = some (Block.reset, [.cmd 0x8002], [0x16, 0x10]) := by decide

/-! ## CRC Engine (R75 to R77, V9, V12) -/

theorem test_crc_table_spots :
    ([0x00, 0x01, 0x02, 0x10, 0x7F, 0x80, 0xA8, 0xD1, 0xD8, 0xFE, 0xFF] : List Byte).map tblRead =
      [0x0000, 0xC1C0, 0x81C1, 0x01CC, 0x41E0, 0x01A0, 0x01BE, 0xC05C, 0x005A, 0x8180, 0x4040] := by decide
theorem test_fold_v12 :
    fold 0xFFFF 0x00 = 0xBF40 ∧ fold 0x00FF 0x00 = 0xFF00 ∧ fold 0x1234 0x56 = 0x3433 ∧ fold 0x8000 0x80 = 0x0000 := by
  decide
theorem test_checksum_v9 : checksum [0x31, 0x32, 0x33, 0x34, 0x35, 0x36, 0x37, 0x38, 0x39] = 0x3DBB := by decide
/-- R75's example. -/
theorem test_crcClr :
    ((next? (exec .crcClr (withBlock { Block.reset with crcAcc := 0x2DBE }))).map (·.block.crcAcc)) = some 0x0000 := by
  decide
/-- R76's example. -/
theorem test_crcFold :
    ((next? (exec (.crcFold 0x10) (withBlock { Block.reset with crcAcc := 0xC1C0 }))).map (·.block.crcAcc)) =
      some 0x005C := by decide
theorem test_crcRd :
    ((next? (exec .crcRd (withBlock { Block.reset with crcAcc := 0x005C }))).map (·.ports.resp)) =
      some [.okValue 0x005C] := by decide

/-! ## Frame Encoder (R86 to R88, V1, V2, V22, V60, V61) -/

/-- V1, V2, and V22: a checksum byte 0x10 is not doubled. -/
theorem test_encode_vectors :
    encodeFrame .linkRequest 0 [] = [0x16, 0x10, 0x02, 0x01, 0x10, 0x10, 0x10, 0x03, 0x00, 0x5C] ∧
    encodeFrame .data 1 [0x46, 0x49, 0x4C, 0x45] = v2 ∧
    encodeFrame .data 0 [0x3E] = [0x16, 0x10, 0x02, 0x01, 0x18, 0x3E, 0x10, 0x03, 0xDA, 0x10] := by decide
/-- R94: the typeSeq byte 0x10 is stuffed. -/
theorem test_encStart :
    ((next? (exec (.encStart .linkRequest 0) State.reset)).map fun t => (t.block.txOut, t.block.txCrc, t.block.encPhase)) =
      some ([0x16, 0x10, 0x02, 0x01, 0x10, 0x10], 0x005C, .body) := by decide
/-- V61. -/
theorem test_encStart_in_body :
    ((next? (exec (.encStart .data 1) (withBlock inFrame))).map fun t => (t.block, t.ports.resp)) =
      some (inFrame, [.badCmd]) := by decide
/-- R87: 0x10 is folded once and emitted twice (P6: `tx_crc` of `01 18 10`). -/
theorem test_encData :
    ((next? (exec (.encData 0x10) (withBlock { inFrame with txCrc := 0x019A, txOut := [] }))).map fun t =>
      (t.block.txOut, t.block.txCrc)) = some ([0x10, 0x10], 0x5A0C) := by decide
/-- V60. -/
theorem test_encData_in_idle :
    ((next? (exec (.encData 0x41) State.reset)).map fun t => (t.block, t.ports.resp)) =
      some (Block.reset, [.badCmd]) := by decide
/-- R88's example. -/
theorem test_encEnd :
    ((next? (exec .encEnd (withBlock { inFrame with txCrc := 0x2DBE, txOut := [] }))).map fun t =>
      (t.block.txOut, t.block.encPhase)) = some ([0x10, 0x03, 0x2D, 0xBE], .idle) := by decide
theorem test_encEnd_in_idle :
    ((next? (exec .encEnd State.reset)).map fun t => (t.block, t.ports.resp)) = some (Block.reset, [.badCmd]) := by decide

/-! ## Receive buffer (R101 to R106, V50, V51, V56 to V58) -/

/-- V50. -/
theorem test_rxPush :
    ((next? (exec (.rxPush [0x01, 0x19]) (withBlock (holding [0x16, 0x10, 0x02])))).map fun t =>
      (t.block.rxBytes, t.block.rxLen)) = some (some [0x16, 0x10, 0x02, 0x01, 0x19], 5) := by decide
/-- V51, with the length alone: an overrun leaves `rx_len` and sets the flag. -/
theorem test_rxPush_overrun :
    ((next? (exec (.rxPush [1, 2, 3]) (withBlock { Block.reset with rxLen := 510 }))).map fun t =>
      (t.block.rxLen, t.block.rxOvr, t.ports.resp)) = some (510, true, [.overrun]) := by decide
/-- V58. -/
theorem test_rxClear :
    ((next? (exec .rxClear (withBlock { holding v2 with rxOvr := true }))).map fun t =>
      (t.block.rxLen, t.block.rxOvr, t.block.rxBytes)) = some (0, false, some []) := by decide
/-- V56. -/
theorem test_status_v56 : statusWord { Block.reset with rxLen := 510, rxOvr := true } = 0x05FE := by decide
/-- V57. -/
theorem test_status_v57 :
    ((next? (exec .status (withBlock { inFrame with rxLen := 10 }))).map (·.ports.resp)) = some [.okValue 0x080A] := by
  decide

/-! ## Extraction (R116 to R124, V24, V25, V27, V31, V35, V37, V39, V41) -/

/-- V24 (a lone 0x10), V25 (the ambiguity), V27 (its false accept), V35 and V36 (a pair at offset 3 or 4), V37 (a
reserved type), V39 (checksum before type), V41 (a stuffed channel is misread). -/
theorem test_extract_vectors :
    ([[0x16, 0x10, 0x02, 0x01, 0x18, 0x10, 0x41, 0x10, 0x03, 0x4C, 0x0B],
      [0x16, 0x10, 0x02, 0x01, 0x1B, 0x10, 0x10, 0x03, 0x10, 0x03, 0x3C, 0x3A],
      [0x16, 0x10, 0x02, 0x01, 0x18, 0x10, 0x10, 0x03, 0x5A, 0x0C, 0x55, 0x10, 0x03, 0x37, 0xB3],
      [0x16, 0x10, 0x02, 0x10, 0x03, 0x00, 0x00, 0x00, 0x00],
      [0x16, 0x10, 0x02, 0x01, 0x10, 0x03, 0xC1, 0xC0, 0x00],
      [0x16, 0x10, 0x02, 0x01, 0x20, 0x10, 0x03, 0x00, 0x48],
      [0x16, 0x10, 0x02, 0x01, 0x20, 0x10, 0x03, 0x00, 0x49],
      [0x16, 0x10, 0x02, 0x10, 0x10, 0x18, 0x41, 0x10, 0x03, 0xCB, 0xF5]] : List (List Byte)).map extract =
    [.okMessage ⟨.data, 0, [0x10]⟩, .corrupt 0x5AFC 0x1003, .okMessage ⟨.data, 0, [0x10]⟩, .noFrame, .noFrame,
      .badType 0x20, .corrupt 0x0048 0x0049, .okMessage ⟨.linkRequest, 0, [0x41]⟩] := by decide
theorem test_rxExtract_consumes :
    ((next? (exec (.rxExtract true) (withBlock (holding v2)))).map fun t => (t.block.rxLen, t.ports.resp)) =
      some (0, [.okMessage ⟨.data, 1, [0x46, 0x49, 0x4C, 0x45]⟩]) := by decide
/-- V31, V32: a corrupt frame stays. -/
theorem test_rxExtract_corrupt :
    ((next? (exec (.rxExtract true) (withBlock (holding (v2.set 12 0xBF))))).map fun t => (t.block.rxLen, t.ports.resp)) =
      some (13, [.corrupt 0x2DBE 0x2DBF]) := by decide
theorem test_rxValid :
    ((next? (exec .rxValid (withBlock (holding v2)))).map fun t => (t.block.rxLen, t.ports.resp)) =
      some (13, [.okValid true]) := by decide
theorem test_rxValid_incomplete :
    ((next? (exec .rxValid (withBlock (holding (v2.take 12))))).map (·.ports.resp)) = some [.okValid false] := by decide

/-! ## typeSeq rows (R52) -/

theorem test_typeSeqAcknowledge :
    ((next? (exec (.typeSeqAcknowledge 7) State.reset)).map fun t => (t.block, t.ports.typeSeqRead)) =
      some (Block.reset, [(.acknowledge, 7)]) := by decide
theorem test_typeSeqDisconnect :
    ((next? (exec (.typeSeqDisconnect 1) State.reset)).map (·.ports.typeSeqRead)) = some [(.disconnect, 1)] := by decide
theorem test_typeSeqLinkRequest :
    ((next? (exec (.typeSeqLinkRequest 0) State.reset)).map (·.ports.typeSeqRead)) = some [(.linkRequest, 0)] := by decide
theorem test_typeSeqData :
    ((next? (exec (.typeSeqData 2) State.reset)).map (·.ports.typeSeqRead)) = some [(.data, 2)] := by decide

/-! ## The environment (E1, E2) -/

/-- E1 step 6: the first data frame carries sequence 1. -/
theorem test_send_data :
    ((send .data [0x46, 0x49, 0x4C, 0x45] State.reset).1.ports.host, (send .data [] State.reset).1.env.seqCtr) =
      ([.write v2], 1) := by decide
/-- E1 step 7: a write overrun saturates and releases. -/
theorem test_completion_overrun :
    (let e := (handleCompletion 20 { State.reset with env := { Env.reset with busy := true, outstanding := 13 } }).env
     (e.busy, e.outstanding)) = (false, 0) := by decide
/-- E2 step 6: a whole frame disarms the timer and reaches the host. -/
theorem test_dataAvailable :
    ((next? (handleEvent (.dataAvailable 13 13) { State.reset with env := { Env.reset with unread := v2 } })).map fun t =>
      (t.ports.host, t.env.inactArmed)) =
      some ([.packetReceived ⟨.data, 1, [0x46, 0x49, 0x4C, 0x45]⟩], false) := by decide
/-- R149: bytes are unread in the order of their arrival. -/
theorem test_arrive :
    ((next? (handleEvent (.arrive [3]) { State.reset with env := { Env.reset with unread := [1, 2] } })).map
      (·.env.unread)) = some [1, 2, 3] := by decide
/-- E2 step 7: no expiry while not armed. -/
theorem test_inactivity_unarmed : next? (handleEvent .inactivityElapsed State.reset) = none := by decide
/-- R166's codes, in the order of its table. -/
theorem test_status_codes :
    ([.ok, .noFrame, .corrupt, .overrun, .badType, .badCmd] : List Status).map Status.code = [0, 1, 2, 3, 4, 5] := by
  decide
/-- R63's example line, and R64's syntax. -/
theorem test_assemble :
    assemble "ENC.START data, 1 ; word 0x4019".toList = some (.instr (.encStart .data 1)) ∧
    assemble "RX.PUSH [16 0x10 02]".toList = some (.instr (.rxPush [0x16, 0x10, 0x02])) ∧
    assemble "ENC.DATA 0xaF".toList = some (.instr (.encData 0xAF)) ∧
    assemble "ENC.START data, 8".toList = none ∧ assemble "ENC.START data 1".toList = none := by decide

end Sys2Proof.Tests
end

