-- ==== Sys2Proof/Tests/Witnesses.lean ====
section
/-! SUPPORT. For every statement of Certificates/Slice0/Obligations.lean that has hypotheses, concrete values that meet
them together, clause by clause, at a boundary where the clause has one. -/

namespace Sys2Proof.Tests

open Sys2Proof Sys2Proof.Machine

/-! ## States the witnesses use -/

/-- A block whose `rx_len` says 510, as after V51's first push. -/
def len510 : State := withBlock { Block.reset with rxLen := 510 }

/-- A state whose buffer holds V2. -/
def v2State : State := withBlock (holding v2)

/-- The receive invariant at reset. -/
theorem reset_rxInv : RxInv Block.reset := RxInv.clearRx Block.reset

/-- The receive invariant of a block that holds pushed bytes. -/
theorem holding_rxInv (bytes : List Byte) : RxInv (holding bytes) := reset_rxInv.push bytes

/-- The invariant of reset with inputs and bytes pending. -/
theorem pending_inv (inputs : List Input) (rxIn : List Byte) : State.Inv (pending inputs rxIn) :=
  { rx := reset_rxInv, tx := fun h => (by cases h), env := ⟨(by decide : false = true ↔ 0 < 0), rfl, rfl⟩ }

/-! ## Encodings -/

theorem witness_DecodeOfEncode : ∃ i : Instr, i.WellFormed ∧ i = .rxPush (List.replicate 1023 0) :=
  ⟨_, test_wf_push_1023, rfl⟩

theorem witness_EncodeOfDecode :
    decode 0x8002 [1, 2, 3] = .instr (.rxPush [1, 2]) [3] ∧ decodeTypeSeq 0x1F = some (.typeSeqData 7) := by decide

theorem witness_ReservedWordsAnswerBadCmd :
    (pending [.cmd 0x8400] [1]).ports.inputs = .cmd 0x8400 :: [] ∧
    decode 0x8400 (pending [.cmd 0x8400] [1]).ports.rxIn = .reserved .z := by decide

theorem witness_TypeSeqLayout :
    typeSeqType 0x1F = some .data ∧ extract v2 = .okMessage ⟨.data, 1, [0x46, 0x49, 0x4C, 0x45]⟩ := by decide

theorem witness_AssembleShownLine : isCommand (.rxPush [0x10]) = true := rfl

/-! ## The step -/

theorem witness_StepRunsDecodedInstruction :
    (pending [.cmd 0x8001] [7]).ports.inputs = .cmd 0x8001 :: [] ∧
    decode 0x8001 (pending [.cmd 0x8001] [7]).ports.rxIn = .instr (.rxPush [7]) [] ∧
    (pending [.typeSeq 0x10] []).ports.inputs = .typeSeq 0x10 :: [] ∧
    decodeTypeSeq 0x10 = some (.typeSeqLinkRequest 0) := by decide

theorem witness_StepHoldsStateWhileWaiting :
    State.reset.ports.inputs = [] ∧ (pending [.cmd 0x8002] [7]).ports.inputs = .cmd 0x8002 :: [] ∧
    (∀ g, Input.signal g ∉ ([] : List Input)) ∧
    decode 0x8002 (pending [.cmd 0x8002] [7]).ports.rxIn = .starved 2 :=
  ⟨rfl, rfl, by simp, by decide⟩

/-- The clause on a waiting push: a signal with another command before it and one behind it. -/
theorem witness_StepHoldsStateWhileWaiting_signal :
    (pending [.cmd 0x8002, .cmd 0xC000, .signal .reset, .cmd 0x1000] [7]).ports.inputs =
      .cmd 0x8002 :: ([.cmd 0xC000] ++ .signal .reset :: [.cmd 0x1000]) ∧
    (∀ g, Input.signal g ∉ ([.cmd 0xC000] : List Input)) ∧
    decode 0x8002 (pending [.cmd 0x8002, .cmd 0xC000, .signal .reset, .cmd 0x1000] [7]).ports.rxIn = .starved 2 :=
  ⟨rfl, by simp, by decide⟩

theorem witness_StepHandlesOtherInputs :
    (pending [.event .keepaliveTick] []).ports.inputs = .event .keepaliveTick :: [] ∧
    (pending [.signal .reset] []).ports.inputs = .signal .reset :: [] ∧
    (pending [.signal (.takeTx 1)] []).ports.inputs = .signal (.takeTx 1) :: [] ∧
    (pending [.signal (.rxIn [1])] []).ports.inputs = .signal (.rxIn [1]) :: [] ∧
    (pending [.event (.arrive [1])] []).ports.inputs = .event (.arrive [1]) :: [] ∧
    (pending [.typeSeq 0x20] []).ports.inputs = .typeSeq 0x20 :: [] ∧ 0x20 ≤ (0x20 : Byte).toNat ∧
    (pending [.event .inactivityElapsed] []).ports.inputs = .event .inactivityElapsed :: [] ∧
    (pending [.event .inactivityElapsed] []).env.inactArmed = false ∧
    (pending [.event .repoint] []).ports.inputs = .event .repoint :: [] := by decide

/-! ## The Frame Encoder -/

/-- ENC.START in both phases (the two clauses of EncStartOpensFrame). -/
theorem witness_EncStartOpensFrame :
    State.reset.block.encPhase = .idle ∧ (withBlock inFrame).block.encPhase = .body := by decide

theorem witness_EncDataEmitsPayloadByte :
    (withBlock inFrame).block.encPhase = .body ∧ State.reset.block.encPhase = .idle := by decide

theorem witness_EncEndClosesFrame :
    (withBlock inFrame).block.encPhase = .body ∧ State.reset.block.encPhase = .idle := by decide

theorem witness_EncoderCommandsEqualEncode :
    RxInv State.reset.block ∧ State.reset.block.encPhase = .idle ∧
    [Instr.crcClr, .encStart .data 1, .rxPush [1], .encData 0x46, .rxExtract true, .encEnd, .status].filter isEnc =
      .encStart .data 1 :: (([0x46] : List Byte).map .encData ++ [.encEnd]) :=
  ⟨reset_rxInv, by decide, by decide⟩

theorem witness_StuffedRunsAreEven :
    stuffAll [0x41, 0x10, 0x42] = [0x41] ++ List.replicate 2 0x10 ++ [0x42] ∧
    ([0x41] : List Byte).getLast? ≠ some 0x10 ∧ ([0x42] : List Byte).head? ≠ some 0x10 := by decide

/-- The second pair is V26's: the stuffed typeSeq 0x10 and a first payload byte 0x03. -/
theorem witness_FirstPairOfFrame :
    hasPair (typeSeqByte .data 0 :: [0x03, 0x10]) = false ∧ hasPair (typeSeqByte .linkRequest 0 :: [0x03]) = true := by
  decide

/-! ## The receive buffer -/

theorem witness_PushAppendsDelivery :
    ([1, 2] : List Byte).length < 1024 ∧ len510.block.rxLen.toNat + ([1, 2] : List Byte).length ≤ 512 ∧
    (withBlock { Block.reset with rxLen := 512 }).block.rxLen.toNat ≤ 512 := by decide

theorem witness_OverrunDropsDelivery :
    512 < len510.block.rxLen.toNat + ([1, 2, 3] : List Byte).length ∧
    ∃ s : State, s.ports.inputs = .cmd 0x8003 :: [] ∧ encode (.rxPush [1, 2, 3]) = .cmd 0x8003 [1, 2, 3] ∧
      ([1, 2, 3] : List Byte).length < 1024 ∧ s.ports.rxIn = [1, 2, 3] ++ [4] ∧
      512 < s.block.rxLen.toNat + ([1, 2, 3] : List Byte).length :=
  ⟨by decide, { len510 with ports := (pending [.cmd 0x8003] [1, 2, 3, 4]).ports }, by decide⟩

theorem witness_BufferHoldsPushedBytes :
    ∃ t, RxInv v2State.block ∧ v2State.block.rxBytes = some v2 ∧ exec (.rxExtract true) v2State = .next t :=
  ⟨_, holding_rxInv v2, by decide, rfl⟩

/-- An RX.EXTRACT that keeps, RX.CLEAR, an RX.EXTRACT that consumes, and a reset. -/
theorem witness_OnlyThreeThingsEmptyBuffer :
    (∃ t, exec (.rxExtract false) v2State = .next t ∧ Instr.rxExtract false ≠ .rxClear ∧
      ¬ ∃ B m, Instr.rxExtract false = .rxExtract true ∧ v2State.block.rxBytes = some B ∧ extract B = .okMessage m) ∧
    (∃ t, exec .rxClear v2State = .next t) ∧
    (∃ t m, v2State.block.rxBytes = some v2 ∧ extract v2 = .okMessage m ∧ exec (.rxExtract true) v2State = .next t) ∧
    (∃ t, (pending [.signal .reset] []).ports.inputs = .signal .reset :: [] ∧ step (pending [.signal .reset] []) = .next t) :=
  ⟨⟨_, rfl, by decide, by simp⟩, ⟨_, rfl⟩, ⟨_, ⟨.data, 1, [0x46, 0x49, 0x4C, 0x45]⟩, by decide, by decide, rfl⟩,
    ⟨_, rfl, rfl⟩⟩

theorem witness_OverrunFlagIsSticky :
    (∃ t, exec (.rxPush [1, 2, 3]) len510 = .next t) ∧
    (∃ t, Instr.rxPush [1, 2] ≠ .status ∧ exec (.rxPush [1, 2]) len510 = .next t) ∧
    (∃ t, (pending [.signal .reset] []).ports.inputs = .signal .reset :: [] ∧ step (pending [.signal .reset] []) = .next t) :=
  ⟨⟨_, rfl⟩, ⟨_, by decide, rfl⟩, ⟨_, rfl, rfl⟩⟩

/-- A stale byte at the first offset beyond `rx_len`. -/
theorem witness_BytesBeyondLengthNeverMatter :
    ∃ m : Memory, m ≠ v2State.block.rxBuf ∧
      ∀ a, a < v2State.block.rxLen.toNat → m.read a = v2State.block.rxBuf.read a :=
  ⟨v2State.block.rxBuf.write 13 0xEE, by decide, fun a ha =>
    Memory.read_write_other _ (Nat.ne_of_gt (Nat.lt_of_lt_of_eq ha (by decide))) _⟩

/-! ## The extraction -/

theorem witness_ExtractCommandConsumes :
    (v2State.block.rxBytes = some v2 ∧ extract v2 = .okMessage ⟨.data, 1, [0x46, 0x49, 0x4C, 0x45]⟩) ∧
    (State.reset.block.rxBytes = some [] ∧ ((true = false) ∨ ∀ m, extract [] ≠ .okMessage m)) :=
  ⟨by decide, by decide, .inr fun m => by simp [extract, Config.minFrame]⟩

theorem witness_RxValidProbes :
    v2State.block.rxBytes = some v2 ∧
    ∃ t, exec .rxValid v2State = .next t ∧ t.ports.resp = v2State.ports.resp ++ [.okValid true] :=
  ⟨by decide, _, rfl, by decide⟩

/-- V28: the largest receivable frame and payload. -/
theorem witness_ExtractedPayloadIsBounded :
    extract (encodeFrame .data 0 (List.replicate 503 0x41)) = .okMessage ⟨.data, 0, List.replicate 503 0x41⟩ ∧
    (encodeFrame .data 0 (List.replicate 503 0x41)).length ≤ 512 := by decide +kernel

theorem witness_LaterBytesNeverHelp :
    extract v2 ≠ .noFrame ∧ 3 ≤ ([0x00, 0x16, 0x10] : List Byte).length ∧
    ([0x00, 0x16, 0x10] : List Byte).take 3 ≠ [0x16, 0x10, 0x02] := by decide

theorem witness_ExtractOfEncode : hasPair (typeSeqByte .data 1 :: [0x10, 0x10, 0x41, 0x03]) = false := by decide

theorem witness_AmbiguousFrameMisreads : hasPair (typeSeqByte .data 3 :: [0x10, 0x03]) = true := by decide

/-- V45: V2 in 2-byte pieces. -/
theorem witness_FragmentedDeliveryExtractsOnce :
    hasPair (typeSeqByte .data 1 :: [0x46, 0x49, 0x4C, 0x45]) = false ∧
    (encodeFrame .data 1 [0x46, 0x49, 0x4C, 0x45]).length ≤ 512 ∧
    (∀ c ∈ ([[0x16, 0x10], [0x02, 0x01], [0x19, 0x46], [0x49, 0x4C], [0x45, 0x10], [0x03, 0x2D], [0xBE]] :
      List (List Byte)), c ≠ []) ∧
    ([[0x16, 0x10], [0x02, 0x01], [0x19, 0x46], [0x49, 0x4C], [0x45, 0x10], [0x03, 0x2D], [0xBE]] :
      List (List Byte)).flatten = encodeFrame .data 1 [0x46, 0x49, 0x4C, 0x45] ∧
    RxInv State.reset.block ∧ State.reset.block.rxLen = 0 :=
  ⟨by decide, by decide, by decide, by decide, reset_rxInv, rfl⟩

/-- A DELIVER that overruns (V51), and one that ends with a Message. -/
theorem witness_PseudoInstructionsExpand :
    (∃ t, exec (.rxPush [1, 2, 3]) len510 = .next t) ∧
    (∃ t, deliver [1, 2, 3] len510 = .next (t, .overrun)) ∧
    (∃ t, deliver v2 State.reset = .next (t, .okMessage ⟨.data, 1, [0x46, 0x49, 0x4C, 0x45]⟩)) :=
  ⟨⟨_, rfl⟩, ⟨_, rfl⟩, ⟨_, rfl⟩⟩

/-! ## Whole-machine rules -/

theorem witness_EveryCommandAnswersOnce :
    (∃ t, exec (.rxExtract true) v2State = .next t ∧ isCommand (.rxExtract true) = true) ∧
    (∃ t, exec (.typeSeqData 1) v2State = .next t ∧ isCommand (.typeSeqData 1) = false) :=
  ⟨⟨_, rfl, rfl⟩, ⟨_, rfl, rfl⟩⟩

/-- A refused ENC.END, and an overrun. -/
theorem witness_FailedCommandChangesNothing :
    (∃ t, exec .encEnd State.reset = .next t ∧ t.ports.resp = State.reset.ports.resp ++ [.badCmd] ∧
      Response.badCmd.status ≠ .ok) ∧
    (∃ t, exec (.rxPush [1, 2, 3]) len510 = .next t ∧ t.ports.resp = len510.ports.resp ++ [.overrun] ∧
      Response.overrun.status ≠ .ok) :=
  ⟨⟨_, rfl, rfl, by decide⟩, ⟨_, rfl, rfl, by decide⟩⟩

theorem witness_NonStoringCommandsFrame :
    ∃ t, exec .crcRd v2State = .next t ∧ (∀ bytes, Instr.crcRd ≠ .rxPush bytes) ∧ Instr.crcRd ≠ .rxExtract true ∧
      Instr.crcRd ≠ .rxClear ∧ isEnc .crcRd = false ∧ (Instr.crcRd ≠ .crcClr ∧ ∀ b, Instr.crcRd ≠ .crcFold b) :=
  ⟨_, rfl, by simp, by simp, by simp, rfl, by simp, by simp⟩

theorem witness_BufferCommandsFrame :
    ∃ t, exec (.rxPush [1, 2]) len510 = .next t ∧
      ((∃ bytes, Instr.rxPush [1, 2] = .rxPush bytes) ∨ Instr.rxPush [1, 2] = .rxExtract true ∨
        Instr.rxPush [1, 2] = .rxClear) ∧
      ¬(len510.block.rxLen.toNat ≤ 509 ∧ 509 < len510.block.rxLen.toNat + ([1, 2] : List Byte).length) ∧
      ¬(len510.block.rxLen.toNat ≤ 512 ∧ 512 < len510.block.rxLen.toNat + ([1, 2] : List Byte).length) :=
  ⟨_, rfl, .inl ⟨_, rfl⟩, by decide, by decide⟩

theorem witness_EmittedBytesOnlyGrow : ∃ t, step (pending [.cmd 0x4010] []) = .next t := ⟨_, rfl⟩

theorem witness_StepKeepsInvariant :
    ∃ t, State.Inv (pending [.cmd 0x4010] []) ∧ step (pending [.cmd 0x4010] []) = .next t :=
  ⟨_, pending_inv _ _, rfl⟩

theorem witness_InvariantRulesOutFaults : RxInv (pending [.cmd 0x9001] []).block := reset_rxInv

/-! ## The environment -/

/-- The environment with a write of ten bytes in flight. -/
def inFlight : State := { State.reset with env := { Env.reset with busy := true, outstanding := 10 } }

theorem witness_SendGateAdmitsOneFrame :
    inFlight.env.busy = true ∧ State.reset.env.busy = false ∧ State.reset.block.encPhase = .idle := by decide

/-- A free link, with the encoder in the middle of a frame. -/
theorem witness_SendWritesWhatEncodeAppends :
    (withBlock inFrame).env.busy = false ∧ (withBlock inFrame).block.encPhase = .body := by decide

theorem witness_CompletionReleasesBusy : 10 ≤ inFlight.env.outstanding ∧ inFlight.env.outstanding < 11 := by decide

theorem witness_SingleFlightUntilCompletion :
    inFlight.env.busy = true ∧
    completedBytes [.completion 4, .send .data [1], .keepaliveTick, .completion 5] < inFlight.env.outstanding ∧
    ∃ u, handleAll [.completion 4, .send .data [1], .keepaliveTick, .completion 5] inFlight = .next u :=
  ⟨rfl, by decide, _, rfl⟩

theorem witness_DataAvailableDelivers :
    ∃ (s u : State) (r : Response),
      deliver (s.env.unread.take 13)
        { s with
          env := { s.env with unread := s.env.unread.drop 13, inactArmed := true }
          ports := { s.ports with
            host := s.ports.host ++
              (if (s.env.unread.take 13).length < 14 then [.diagnostic .shortRead] else []) } } = .next (u, r) :=
  ⟨{ State.reset with env := { Env.reset with unread := v2 } }, _, _, rfl⟩

theorem witness_InactivityDiscardsBuffer :
    ({ State.reset with env := { Env.reset with inactArmed := true } } : State).env.inactArmed = true := by decide

/-- A busy link, a free link with an idle encoder, and a connected Session. -/
theorem witness_KeepaliveAttemptsLinkRequest :
    (inFlight.env.connected = false ∧ inFlight.env.sendQueue = [] ∧ inFlight.env.busy = true) ∧
    (State.reset.env.connected = false ∧ State.reset.env.sendQueue = [] ∧ State.reset.env.busy = false ∧
      State.reset.block.encPhase = .idle) ∧
    ({ State.reset with env := { Env.reset with connected := true } } : State).env.connected = true := by decide

theorem witness_NothingConnects : ∃ t, step (pending [.event .keepaliveTick] []) = .next t := ⟨_, rfl⟩

end Sys2Proof.Tests
end

section
/-! PROOFS. Family 10_state: the block after reset (R25), the status word (R15, R106), and the sticky overrun flag (R14). -/

namespace Sys2Proof.Machine

/-! ## The table (R70, R71) -/

/-- Each entry of R71's listing is the byte-swapped result of R70's eight division steps: the 256 entries, checked. -/
theorem tblRead_eq_swap16_rawEntry : ∀ i : Byte, tblRead i = swap16 (rawEntry i) := by
  decide

/-! ## The status word (R15, R106): which state each of its bits shows -/

section
variable (b : Block)

theorem statusWord_rxLen : (statusWord b).extractLsb' 0 10 = b.rxLen := by
  ext i hi
  simp [statusWord, BitVec.getElem_extractLsb', hi, show i < 11 by omega, show i < 16 by omega]

theorem statusWord_rxOvr : (statusWord b).getLsbD 10 = b.rxOvr := by
  simp [statusWord]

theorem statusWord_encPhase : (statusWord b).getLsbD 11 = decide (b.encPhase = .body) := by
  cases h : b.encPhase <;> simp [statusWord, h, EncPhase.bit]

theorem statusWord_upper_zero : (statusWord b).extractLsb' 12 4 = 0 := by
  ext i hi
  have hphase : b.encPhase.bit.getLsbD (12 + i - 11) = false := BitVec.getLsbD_of_ge _ _ (by omega)
  have hlen : b.rxLen.getLsbD (12 + i) = false := BitVec.getLsbD_of_ge _ _ (by omega)
  simp [statusWord, BitVec.getElem_extractLsb', hphase, hlen, show 12 + i - 10 ≠ 0 by omega]

end

theorem statusWord_reset : statusWord Block.reset = 0x0000 := by decide

/-- STATUS completes in every state, writes nothing and answers the status word (R106). -/
theorem exec_status (s : State) : exec .status s = .next (s.complete (s.block, .okValue (statusWord s.block))) := rfl

/-- Settles O10: the fields are the reset literals of R25, the table is R70's. -/
theorem resetValues : Obligations.ResetValues :=
  ⟨rfl, rfl, rfl, Memory.read_nil, rfl, rfl, rfl, statusWord_reset, tblRead_eq_swap16_rawEntry⟩

/-- Settles O30: STATUS answers the status word, whose bits the lemmas above read. -/
theorem statusReadsFields : Obligations.StatusReadsFields :=
  ⟨rfl, fun s => ⟨statusWord s.block, exec_status s, statusWord_rxLen _, statusWord_rxOvr _, statusWord_encPhase _,
    statusWord_upper_zero _⟩, statusWord_reset⟩

/-! ## What writes `rx_ovr` (R14) -/

section
variable (b : Block)

@[simp] theorem rxPushEffect_rxOvr (bytes : List Byte) :
    (rxPushEffect bytes b).1.rxOvr = (b.rxOvr || decide (512 < b.rxLen.toNat + bytes.length)) := by
  by_cases hov : Config.maxFrame < b.rxLen.toNat + bytes.length
  · rw [rxPushEffect_overrun hov]
    rw [maxFrame_eq] at hov
    simp [hov]
  · rw [rxPushEffect_accepted (by omega)]
    rw [maxFrame_eq] at hov
    simp [hov]

@[simp] theorem encStartEffect_rxOvr (t : PacketType) (sq : BitVec 3) : (encStartEffect t sq b).1.rxOvr = b.rxOvr := by
  cases h : b.encPhase <;> simp [encStartEffect, h]

@[simp] theorem encDataEffect_rxOvr (x : Byte) : (encDataEffect x b).1.rxOvr = b.rxOvr := by
  cases h : b.encPhase <;> simp [encDataEffect, h]

@[simp] theorem encEndEffect_rxOvr : (encEndEffect b).1.rxOvr = b.rxOvr := by
  cases h : b.encPhase <;> simp [encEndEffect, h]

/-- An extraction answers OK exactly with a Message (R121, R123). -/
theorem extract_status_beq_ok (B : List Byte) : ((extract B).status == .ok) = isMessage (extract B) := by
  rw [Bool.eq_iff_iff, beq_iff_eq, extract_status_ok]
  cases extract B <;> simp [isMessage]

@[simp] theorem consumeOn_false (r : Response) : consumeOn false r b = b := rfl

/-- A consuming extraction clears the flag with the buffer, on a Message alone (R123). -/
theorem consumeOn_true_extract_rxOvr (B : List Byte) :
    (consumeOn true (extract B) b).rxOvr = (b.rxOvr && !isMessage (extract B)) := by
  rw [consumeOn, Bool.true_and, extract_status_beq_ok]
  cases isMessage (extract B) <;> simp

end

/-- `rx_ovr` after an instruction, by R14's list of its writers. -/
def rxOvrAfter (i : Instr) (b : Block) : Bool :=
  match i with
  | .rxPush bytes => b.rxOvr || decide (512 < b.rxLen.toNat + bytes.length)
  | .rxClear => false
  | .rxExtract true => b.rxOvr && !(b.rxBytes.map fun B => isMessage (extract B)).getD false
  | _ => b.rxOvr

/-- A command leaves in `rx_ovr` what R14 says. -/
theorem commandEffect_rxOvr {i : Instr} {b : Block} {e : Block × Response} (h : commandEffect i b = some e) :
    e.1.rxOvr = rxOvrAfter i b := by
  cases i with
  | rxExtract c =>
    obtain ⟨B, hB, rfl⟩ := Option.map_eq_some_iff.1 h
    cases c with
    | false => rfl
    | true => simp [rxOvrAfter, hB, consumeOn_true_extract_rxOvr]
  | rxValid =>
    obtain ⟨B, -, rfl⟩ := Option.map_eq_some_iff.1 h
    rfl
  | typeSeqAcknowledge sq | typeSeqDisconnect sq | typeSeqLinkRequest sq | typeSeqData sq => cases h
  | rxPush bytes => cases h; exact rxPushEffect_rxOvr _ _
  | encStart t sq => cases h; exact encStartEffect_rxOvr _ _ _
  | encData x => cases h; exact encDataEffect_rxOvr _ _
  | encEnd => cases h; exact encEndEffect_rxOvr _
  | crcClr | crcFold x | crcRd | rxClear | status => cases h; rfl

theorem exec_rxOvr {i : Instr} {s t : State} (h : exec i s = .next t) : t.block.rxOvr = rxOvrAfter i s.block := by
  obtain ⟨-, e, he, rfl⟩ | ⟨ty, sq, rfl, rfl⟩ := exec_next_cases h
  · exact commandEffect_rxOvr he
  · cases ty <;> rfl

/-! ## What reads `rx_ovr` (R14) -/

theorem rxPushEffect_response (bytes : List Byte) (b : Block) :
    (rxPushEffect bytes b).2 = if overruns b bytes.length then .overrun else .ok := by
  unfold rxPushEffect
  split <;> rfl

/-- The block with another value of the flag. -/
def Block.withRxOvr (b : Block) (v : Bool) : Block := { b with rxOvr := v }

/-- The state with another value of the flag. -/
def State.withRxOvr (s : State) (v : Bool) : State := { s with block := s.block.withRxOvr v }

/-- No command but STATUS answers differently for another value of the flag, or stops where it did not. -/
theorem commandEffect_withRxOvr_response {i : Instr} (hi : i ≠ .status) (b : Block) (v : Bool) :
    (commandEffect i (b.withRxOvr v)).map Prod.snd = (commandEffect i b).map Prod.snd := by
  cases i with
  | status => exact absurd rfl hi
  | encStart t sq => cases h : b.encPhase <;> simp [commandEffect, encStartEffect, Block.withRxOvr, h]
  | encData x => cases h : b.encPhase <;> simp [commandEffect, encDataEffect, Block.withRxOvr, h]
  | encEnd => cases h : b.encPhase <;> simp [commandEffect, encEndEffect, Block.withRxOvr, h]
  | rxPush bytes =>
    simp only [commandEffect, Option.map_some, rxPushEffect_response]
    rfl
  | rxExtract c =>
    simp only [commandEffect, rxExtractEffect, Option.map_map]
    rfl
  | rxValid =>
    simp only [commandEffect, rxValidEffect, Option.map_map]
    rfl
  | _ => rfl

theorem exec_withRxOvr_ports {i : Instr} {s t : State} (hi : i ≠ .status) (h : exec i s = .next t) (v : Bool) :
    ∃ u, exec i (s.withRxOvr v) = .next u ∧ u.ports = t.ports := by
  obtain ⟨hc, e, he, rfl⟩ | ⟨ty, sq, rfl, rfl⟩ := exec_next_cases h
  · have hresp := commandEffect_withRxOvr_response hi s.block v
    rw [he, Option.map_some] at hresp
    obtain ⟨e', he', hsnd⟩ := Option.map_eq_some_iff.1 hresp
    refine ⟨(s.withRxOvr v).complete e', ?_, ?_⟩
    · rw [exec_command hc]
      exact congrArg (State.completeRead _) he'
    · simp [State.complete, State.withRxOvr, hsnd]
  · exact ⟨_, exec_typeSeq ty sq _, rfl⟩

/-! ## A signal as the next input -/

theorem step_signal {s : State} {g : Signal} {inputs : List Input} (h : s.ports.inputs = .signal g :: inputs) :
    step s = .next (signalEffect g s.popInput) := by
  simp [step, stepInput, h]

theorem step_reset_block {s t : State} {inputs : List Input} (hin : s.ports.inputs = .signal .reset :: inputs)
    (h : step s = .next t) : t.block = Block.reset := by
  rw [step_signal hin] at h
  cases h
  rfl

/-- Settles O33: the writers by `exec_rxOvr`, the readers by `exec_withRxOvr_ports`, the reset by `step_reset_block`. -/
theorem overrunFlagIsSticky : Obligations.OverrunFlagIsSticky := by
  refine ⟨fun i s t h => ?_, fun i s t v hi h => exec_withRxOvr_ports hi h v, fun s t inputs hin h => ?_, rfl⟩
  · exact exec_rxOvr h
  · rw [step_reset_block hin h]
    rfl

end Sys2Proof.Machine
end

section
/-! PROOFS. Family 30_encoding: the reserved command words (R60) and the typeSeq byte (R51, R56). -/

namespace Sys2Proof

/-! ## The fields of a command word (R58) -/

/-- A word is its three fields. -/
theorem word_eq_iff_fields (w v : Word) :
    w = v ↔ opField w = opField v ∧ zField w = zField v ∧ argField w = argField v := by
  refine ⟨by rintro rfl; simp, fun ⟨hop, hz, harg⟩ => BitVec.eq_of_toNat_eq ?_⟩
  simp only [opField, zField, argField, BitVec.toNat_eq, BitVec.extractLsb'_toNat, Nat.shiftRight_eq_div_pow]
    at hop hz harg
  omega

theorem opField_and (w v : Word) : opField (w &&& v) = opField w &&& opField v := BitVec.extractLsb'_and

theorem zField_and (w v : Word) : zField (w &&& v) = zField w &&& zField v := BitVec.extractLsb'_and

theorem argField_and (w v : Word) : argField (w &&& v) = argField w &&& argField v := BitVec.extractLsb'_and

/-- A mask of the bits from `k` on leaves zero exactly when these bits are zero. -/
theorem and_highMask_eq_zero_iff (k m : Nat) (a : BitVec (k + m)) :
    a &&& (BitVec.allOnes (k + m) <<< k) = 0 ↔ a.extractLsb' k m = 0 := by
  simp only [BitVec.eq_of_getLsbD_eq_iff, BitVec.getLsbD_and, BitVec.getLsbD_shiftLeft, BitVec.getLsbD_allOnes,
    BitVec.getLsbD_extractLsb']
  constructor
  · intro h i hi
    simpa [hi, show i < k + m by omega] using h (k + i) (by omega)
  · intro h i hi
    by_cases hk : i < k
    · simp [hk]
    · have hai : a.getLsbD i = false := by
        simpa [show i - k < m by omega, show k + (i - k) = i by omega] using h (i - k) (by omega)
      simp [hai]

/-! ## The rows of the opcode map (R59) -/

/-- Every row fixes all of `op` and `z`, and wants 0 in `z` and in the `arg` bits it fixes. -/
theorem opTable_fields : ∀ r ∈ opTable,
    opField r.mask = BitVec.allOnes 4 ∧ zField r.mask = BitVec.allOnes 2 ∧ zField r.pattern = 0 ∧
      argField r.pattern = 0 := by
  decide

theorem and_mask_eq_pattern_iff {r : OpRow} (hr : r ∈ opTable) (w : Word) :
    w &&& r.mask = r.pattern ↔
      opField w = opField r.pattern ∧ zField w = 0 ∧ argField w &&& argField r.mask = 0 := by
  obtain ⟨hop, hz, hpz, hparg⟩ := opTable_fields r hr
  rw [word_eq_iff_fields, opField_and, zField_and, argField_and, hop, hz, hpz, hparg, BitVec.and_allOnes,
    BitVec.and_allOnes]

theorem selectRow_eq_none_iff (w : Word) : selectRow w = none ↔ ∀ r ∈ opTable, w &&& r.mask ≠ r.pattern := by
  simp [selectRow, OpRow.selects]

/-! ## The reserved words (R60) -/

/-- R60's list, of the three fields: a reserved op, z not 0, or a reserved `arg` bit of the op's row not 0. -/
def ReservedFields (o : BitVec 4) (z : BitVec 2) (a : BitVec 10) : Prop :=
  o ∈ ([0x0, 0x7, 0xD, 0xE, 0xF] : List (BitVec 4)) ∨ z ≠ 0 ∨
  (o ∈ ([0x1, 0x3, 0x6, 0xA, 0xB, 0xC] : List (BitVec 4)) ∧ a ≠ 0) ∨
  (o ∈ ([0x2, 0x5] : List (BitVec 4)) ∧ a.extractLsb' 8 2 ≠ 0) ∨
  (o = 0x4 ∧ a.extractLsb' 5 5 ≠ 0) ∨
  (o = 0x9 ∧ a.extractLsb' 1 9 ≠ 0)

/-- The classes of R60's list, and RX.PUSH's op, which reserves no `arg` bit, are all the op values. -/
theorem opValue_cases : ∀ o : BitVec 4,
    o ∈ ([0x0, 0x7, 0xD, 0xE, 0xF] : List (BitVec 4)) ∨ o ∈ ([0x1, 0x3, 0x6, 0xA, 0xB, 0xC] : List (BitVec 4)) ∨
      o ∈ ([0x2, 0x5] : List (BitVec 4)) ∨ o = 0x4 ∨ o = 0x9 ∨ o = 0x8 := by
  decide

/-- Fields that fit no row are R60's: with z at 0, each op value has one row, or none. -/
theorem fit_no_row_iff (o : BitVec 4) (z : BitVec 2) (a : BitVec 10) :
    (∀ r ∈ opTable, ¬(o = opField r.pattern ∧ z = 0 ∧ a &&& argField r.mask = 0)) ↔ ReservedFields o z a := by
  have hAll : a &&& 0x3FF#10 = a := BitVec.and_allOnes
  have hByte : a &&& 0x300#10 = 0#10 ↔ a.extractLsb' 8 2 = 0 := and_highMask_eq_zero_iff 8 2 a
  have hStart : a &&& 0x3E0#10 = 0#10 ↔ a.extractLsb' 5 5 = 0 := and_highMask_eq_zero_iff 5 5 a
  have hExtract : a &&& 0x3FE#10 = 0#10 ↔ a.extractLsb' 1 9 = 0 := and_highMask_eq_zero_iff 1 9 a
  by_cases hz : z = 0#2
  · obtain h | h | h | h | h | h := opValue_cases o
    · fin_cases h <;> simp [opTable, opField, ReservedFields]
    · fin_cases h <;> simp [opTable, opField, argField, ReservedFields, hz, hAll]
    · fin_cases h <;> simp [opTable, opField, argField, ReservedFields, hz, hByte]
    · simp [opTable, opField, argField, ReservedFields, hz, h, hStart]
    · simp [opTable, opField, argField, ReservedFields, hz, h, hExtract]
    · simp [opTable, opField, argField, ReservedFields, hz, h]
  · simp [ReservedFields, hz]

theorem selectRow_eq_none_iff_reservedFields (w : Word) :
    selectRow w = none ↔ ReservedFields (opField w) (zField w) (argField w) := by
  rw [selectRow_eq_none_iff, ← fit_no_row_iff]
  exact forall₂_congr fun r hr => not_congr (and_mask_eq_pattern_iff hr w)

theorem decodeOperands_ne_reserved (op : Op) (w : Word) (rxIn : List Byte) (why : ReservedWord) :
    decodeOperands op w rxIn ≠ .reserved why := by
  cases op with
  | rxPush =>
    simp only [decodeOperands]
    split <;> simp
  | _ => simp [decodeOperands]

theorem decode_reserved_iff (w : Word) (rxIn : List Byte) :
    (∃ why, decode w rxIn = .reserved why) ↔ selectRow w = none := by
  cases h : selectRow w with
  | none => simp [decode, h]
  | some r => simp [decode, h, decodeOperands_ne_reserved]

/-! ## The typeSeq byte (R51, R56) -/

@[simp] theorem PacketType.bits_ofBits : ∀ v : BitVec 2, (PacketType.ofBits v).bits = v := by
  decide

@[simp] theorem PacketType.ofBits_bits (t : PacketType) : PacketType.ofBits t.bits = t := by
  cases t <;> rfl

theorem PacketType.ofBits_eq_iff (v : BitVec 2) (t : PacketType) : PacketType.ofBits v = t ↔ t.bits = v :=
  ⟨fun h => by rw [← h, bits_ofBits], fun h => by rw [← h, ofBits_bits]⟩

theorem typeSeqSeq_toNat (b : Byte) : (typeSeqSeq b).toNat = b.toNat % 8 := by
  have hmask : b.toNat &&& 7 = b.toNat % 8 := Nat.and_two_pow_sub_one_eq_mod b.toNat 3
  rw [typeSeqSeq, BitVec.toNat_setWidth, BitVec.toNat_and, BitVec.ofNat_eq_ofNat, BitVec.toNat_ofNat, hmask]
  omega

/-- The guard of `typeSeqType`, as R56 states it. -/
theorem shiftRight_gt_three_iff (b : Byte) : b >>> 3 > 3 ↔ 0x20 ≤ b.toNat := by
  have hthree : (3 : Byte).toNat = 3 := rfl
  rw [gt_iff_lt, BitVec.lt_def, BitVec.toNat_ushiftRight, Nat.shiftRight_eq_div_pow, hthree]
  omega

theorem typeSeqType_eq_none_iff (b : Byte) : typeSeqType b = none ↔ 0x20 ≤ b.toNat := by
  simp [typeSeqType, ← shiftRight_gt_three_iff]

theorem typeSeqType_eq_some_iff (b : Byte) (t : PacketType) :
    typeSeqType b = some t ↔ t.bits.toNat = b.toNat / 8 := by
  have ht := t.bits.isLt
  by_cases hb : 0x20 ≤ b.toNat
  · rw [(typeSeqType_eq_none_iff b).2 hb]
    simp only [reduceCtorEq, false_iff]
    omega
  · rw [typeSeqType, if_neg (mt (shiftRight_gt_three_iff b).1 hb), Option.some_inj, PacketType.ofBits_eq_iff,
      BitVec.toNat_eq, BitVec.toNat_setWidth, BitVec.toNat_ushiftRight, Nat.shiftRight_eq_div_pow]
    omega

section
variable (t : PacketType) (sq : BitVec 3)

/-- The two fields do not overlap: the byte's value is their weighted sum. -/
theorem typeSeqByte_toNat : (typeSeqByte t sq).toNat = 8 * t.bits.toNat + sq.toNat := by
  have ht := t.bits.isLt
  have hsq := sq.isLt
  have hsum := Nat.shiftLeft_add_eq_or_of_lt hsq t.bits.toNat
  have hshift : t.bits.toNat <<< 3 = 8 * t.bits.toNat := by rw [Nat.shiftLeft_eq, Nat.mul_comm]
  rw [typeSeqByte, BitVec.toNat_or, BitVec.toNat_shiftLeft, BitVec.toNat_setWidth, BitVec.toNat_setWidth,
    Nat.mod_eq_of_lt (a := t.bits.toNat) (by omega), Nat.mod_eq_of_lt (a := sq.toNat) (by omega),
    Nat.mod_eq_of_lt (by omega), ← hsum, hshift]

theorem typeSeqByte_extractLsb'_toNat (start len : Nat) :
    ((typeSeqByte t sq).extractLsb' start len).toNat = (8 * t.bits.toNat + sq.toNat) / 2 ^ start % 2 ^ len := by
  rw [BitVec.extractLsb'_toNat, typeSeqByte_toNat, Nat.shiftRight_eq_div_pow]

theorem typeSeqByte_upper_zero : (typeSeqByte t sq).extractLsb' 5 3 = 0 := by
  have ht := t.bits.isLt
  have hsq := sq.isLt
  refine BitVec.eq_of_toNat_eq ((typeSeqByte_extractLsb'_toNat t sq 5 3).trans ?_)
  rw [BitVec.ofNat_eq_ofNat, BitVec.toNat_zero]
  omega

theorem typeSeqByte_type : (typeSeqByte t sq).extractLsb' 3 2 = t.bits := by
  have hsq := sq.isLt
  exact BitVec.eq_of_toNat_eq ((typeSeqByte_extractLsb'_toNat t sq 3 2).trans (by omega))

theorem typeSeqByte_seq : (typeSeqByte t sq).extractLsb' 0 3 = sq :=
  BitVec.eq_of_toNat_eq ((typeSeqByte_extractLsb'_toNat t sq 0 3).trans (by omega))

theorem typeSeqType_typeSeqByte : typeSeqType (typeSeqByte t sq) = some t := by
  have hsq := sq.isLt
  rw [typeSeqType_eq_some_iff, typeSeqByte_toNat]
  omega

theorem typeSeqSeq_typeSeqByte : typeSeqSeq (typeSeqByte t sq) = sq := by
  apply BitVec.eq_of_toNat_eq
  rw [typeSeqSeq_toNat, typeSeqByte_toNat]
  omega

end

end Sys2Proof

namespace Sys2Proof.Machine

/-- A reserved word is taken, and BADCMD is put on `resp` (R60, R169). -/
theorem step_reserved {s : State} {w : Word} {inputs : List Input} {why : ReservedWord}
    (hin : s.ports.inputs = .cmd w :: inputs) (hw : decode w s.ports.rxIn = .reserved why) :
    step s = .next { s with ports := { s.ports with inputs := inputs, resp := s.ports.resp ++ [.badCmd] } } := by
  simp [step, stepInput, stepCommand, hin, hw, State.popInput, State.complete, badCmdEffect]

/-- Settles O4: a word is reserved when it selects no row, which its three fields decide; the step is `step_reserved`. -/
theorem reservedWordsAnswerBadCmd : Obligations.ReservedWordsAnswerBadCmd := by
  refine ⟨fun w rxIn => ⟨?_, ?_⟩, ⟨.op, by decide⟩, fun s w inputs why hin hw => step_reserved hin hw⟩
  · rw [decode_reserved_iff, selectRow_eq_none_iff]
  · rw [decode_reserved_iff, selectRow_eq_none_iff_reservedFields, ReservedFields]

/-- The byte at an offset within a list, as the library's lookup has it. -/
theorem getElem?_eq_byteAt {B : List Byte} {i : Nat} (h : i < B.length) : B[i]? = some (byteAt B i) := by
  simp [byteAt, h]

/-- A Message's type and sequence are those of the byte at buffer offset 4 (R51, R120, R121). -/
theorem extract_okMessage_typeSeq {B : List Byte} {m : Message} (h : extract B = .okMessage m) :
    ∃ b, B[4]? = some b ∧ typeSeqType b = some m.type ∧ typeSeqSeq b = m.seq := by
  obtain hno | ⟨p, hlen, -, -, -, -, hat⟩ := extract_cases B
  · simp [hno] at h
  · have hoffset : 4 < B.length := Nat.lt_of_lt_of_le (by decide) hlen
    rw [hat] at h
    obtain ⟨e, -, he⟩ | ⟨-, he⟩ | ⟨t, ht, he⟩ := extractAt_cases B p
    · simp [he] at h
    · simp [he] at h
    · rw [he] at h
      cases h
      exact ⟨_, getElem?_eq_byteAt hoffset, ht, rfl⟩

/-- Settles O5: assembly by the value of the byte, disassembly by quotient and remainder, the source by
`extract_okMessage_typeSeq`. -/
theorem typeSeqLayout : Obligations.TypeSeqLayout := by
  refine ⟨fun t sq => ?_, fun b => ?_, fun B m h => extract_okMessage_typeSeq h, rfl, rfl, rfl, rfl⟩
  · exact ⟨typeSeqByte_upper_zero t sq, typeSeqByte_type t sq, typeSeqByte_seq t sq, typeSeqByte_toNat t sq,
      typeSeqType_typeSeqByte t sq, typeSeqSeq_typeSeqByte t sq⟩
  · exact ⟨typeSeqSeq_toNat b, fun t => (typeSeqType_eq_some_iff b t).1, typeSeqType_eq_none_iff b⟩

end Sys2Proof.Machine
end

section
/-! PROOFS. Family 40_crc: the update function on unbounded numbers (R72), the checksum as its left fold (R73), and what
CRC.CLR, CRC.FOLD and CRC.RD change and answer (R75 to R77). -/

namespace Sys2Proof.Machine

/-! ## The update function (R72) -/

/-- The high byte is the whole of the shifted word: 16 bits leave 8 (R31). -/
theorem highByte_toNat (v : Word) : (highByte v).toNat = v.toNat >>> 8 := by
  have hv := v.isLt
  rw [highByte, BitVec.extractLsb'_toNat, Nat.shiftRight_eq_div_pow]
  exact Nat.mod_eq_of_lt (by omega)

/-- The table index of R72, on unbounded numbers. -/
theorem xor_highByte_toNat (s : Word) (b : Byte) : (b ^^^ highByte s).toNat = b.toNat ^^^ (s.toNat >>> 8) := by
  rw [BitVec.toNat_xor, highByte_toNat]

theorem tableIndex_lt (s : Word) (b : Byte) : b.toNat ^^^ (s.toNat >>> 8) < 256 :=
  xor_highByte_toNat s b ▸ (b ^^^ highByte s).isLt

/-- R72's formula: the shifted word is truncated, and a table entry has no bit that the truncation would drop. -/
theorem fold_toNat (s : Word) (b : Byte) :
    (fold s b).toNat =
      ((s.toNat <<< 8) ^^^ (tblRead (BitVec.ofNat 8 (b.toNat ^^^ (s.toNat >>> 8)))).toNat) % 65536 := by
  have hindex : BitVec.ofNat 8 (b.toNat ^^^ (s.toNat >>> 8)) = b ^^^ highByte s := by
    rw [← xor_highByte_toNat, BitVec.ofNat_toNat, BitVec.setWidth_eq]
  have hentry := Nat.mod_eq_of_lt (tblRead (b ^^^ highByte s)).isLt
  have htrunc := Nat.xor_mod_two_pow (a := s.toNat <<< 8) (b := (tblRead (b ^^^ highByte s)).toNat) (n := 16)
  rw [hindex, fold, BitVec.toNat_xor, BitVec.toNat_shiftLeft]
  rw [hentry] at htrunc
  exact htrunc.symm

/-! ## The checksum (R73) -/

@[simp] theorem checksum_nil : checksum [] = 0x0000 := rfl

theorem checksum_concat (l : List Byte) (b : Byte) : checksum (l ++ [b]) = fold (checksum l) b := by
  rw [checksum_append, foldAll_cons, foldAll_nil]

/-- Settles O13: the formula by `fold_toNat`, the two equations of the checksum by its law over append. -/
theorem foldAndChecksumFormula : Obligations.FoldAndChecksumFormula :=
  ⟨fun s b => ⟨fold_toNat s b, tableIndex_lt s b⟩, checksum_nil, checksum_concat⟩

/-! ## The commands (R75, R76, R77): each completes in every state -/

section
variable (s : State)

theorem exec_crcClr : exec .crcClr s = .next (s.complete ({ s.block with crcAcc := 0x0000 }, .ok)) :=
  exec_command rfl s

theorem exec_crcFold (b : Byte) :
    exec (.crcFold b) s = .next (s.complete ({ s.block with crcAcc := fold s.block.crcAcc b }, .ok)) :=
  exec_command rfl s

theorem exec_crcRd : exec .crcRd s = .next (s.complete (s.block, .okValue s.block.crcAcc)) :=
  exec_command rfl s

end

/-- Settles O15: the state that CRC.CLR completes with, written out. -/
theorem crcClrClearsAccumulator : Obligations.CrcClrClearsAccumulator :=
  ⟨rfl, exec_crcClr⟩

/-- Settles O16: the state that CRC.FOLD completes with, written out, and R76's two corner values. -/
theorem crcFoldUpdatesAccumulator : Obligations.CrcFoldUpdatesAccumulator :=
  ⟨fun _ => rfl, fun b s => exec_crcFold s b, by decide, by decide⟩

/-- Settles O17: the state that CRC.RD completes with, written out. -/
theorem crcRdReadsAccumulator : Obligations.CrcRdReadsAccumulator :=
  ⟨rfl, exec_crcRd⟩

end Sys2Proof.Machine
end

section
/-! PROOFS. Family 41_encoder: the one-call function as its pseudocode (R85), and the three encoder commands in each
phase (R86, R87, R88). -/

namespace Sys2Proof.Machine

/-! ## The pseudocode of encode (R85) -/

/-- `put` of R85, over the output and the checksum it threads. -/
def pseudoPut : List Byte × Word → Byte → List Byte × Word := fun (out, c) b =>
  (if b = 0x10 then (out ++ [b]) ++ [0x10] else out ++ [b], fold c b)

theorem pseudoPut_eq (a : List Byte × Word) (b : Byte) : pseudoPut a b = (a.1 ++ stuff b, fold a.2 b) := by
  by_cases hb : b = Config.esc
  · subst hb
    exact Prod.ext (List.append_assoc a.1 [Config.esc] [Config.esc]) rfl
  · rw [stuff_of_ne hb]
    exact Prod.ext (if_neg hb) rfl

/-- Over a list of bytes, `put` appends the stuffed bytes and folds the unstuffed ones. -/
theorem foldl_pseudoPut (l : List Byte) (a : List Byte × Word) :
    l.foldl pseudoPut a = (a.1 ++ stuffAll l, foldAll a.2 l) := by
  induction l generalizing a with
  | nil => simp
  | cons b bs ih => simp [ih, pseudoPut_eq]

/-- Settles O19: channel, typeSeq and payload are the logical bytes, and `put` over them is `foldl_pseudoPut`. -/
theorem encodeFollowsPseudocode : Obligations.EncodeFollowsPseudocode := by
  intro t sq payload put typeSeq filled
  have hfilled : filled =
      (Config.preamble ++ stuffAll (logicalBytes t sq payload), checksum (logicalBytes t sq payload)) :=
    foldl_pseudoPut (logicalBytes t sq payload) (Config.preamble, Config.crcInit)
  rw [hfilled, List.append_assoc]
  rfl

/-! ## The commands' effects in each phase (R86, R87, R88) -/

/-- Stuffing one byte, with the escape as a numeral (R46). -/
theorem stuff_eq_ite (x : Byte) : stuff x = if x = 0x10 then [0x10, 0x10] else [x] := by
  by_cases hx : x = Config.esc
  · subst hx
    rfl
  · rw [stuff_of_ne hx]
    exact (if_neg hx).symm

section
variable {b : Block}

theorem encStartEffect_idle (h : b.encPhase = .idle) (t : PacketType) (sq : BitVec 3) :
    encStartEffect t sq b =
      ({ b with
          txCrc := fold (fold Config.crcInit Config.channel) (typeSeqByte t sq)
          encPhase := .body
          txOut := b.txOut ++ (Config.preamble ++ [Config.channel]) ++ stuff (typeSeqByte t sq) }, .ok) := by
  simp [encStartEffect, h, Block.put, Block.emit, stuff_channel]

theorem encStartEffect_body (h : b.encPhase = .body) (t : PacketType) (sq : BitVec 3) :
    encStartEffect t sq b = (b, .badCmd) := by
  simp [encStartEffect, h]

theorem encDataEffect_body (h : b.encPhase = .body) (x : Byte) : encDataEffect x b = (b.put x, .ok) := by
  simp [encDataEffect, h]

theorem encDataEffect_idle (h : b.encPhase = .idle) (x : Byte) : encDataEffect x b = (b, .badCmd) := by
  simp [encDataEffect, h]

theorem encEndEffect_body (h : b.encPhase = .body) :
    encEndEffect b = ({ b.emit (frameTail b.txCrc) with encPhase := .idle }, .ok) := by
  simp [encEndEffect, h]

theorem encEndEffect_idle (h : b.encPhase = .idle) : encEndEffect b = (b, .badCmd) := by
  simp [encEndEffect, h]

end

/-! ## The commands: each completes in every state -/

section
variable (s : State)

theorem exec_encStart (t : PacketType) (sq : BitVec 3) :
    exec (.encStart t sq) s = .next (s.complete (encStartEffect t sq s.block)) :=
  exec_command rfl s

theorem exec_encData (x : Byte) : exec (.encData x) s = .next (s.complete (encDataEffect x s.block)) :=
  exec_command rfl s

theorem exec_encEnd : exec .encEnd s = .next (s.complete (encEndEffect s.block)) :=
  exec_command rfl s

end

theorem typeSeqByte_toNat_le (t : PacketType) (sq : BitVec 3) : (typeSeqByte t sq).toNat ≤ 0x1F := by
  rw [typeSeqByte_toNat]
  have ht := t.bits.isLt
  have hsq := sq.isLt
  omega

/-- Settles O20: `encStartEffect` in the two phases, completed. -/
theorem encStartOpensFrame : Obligations.EncStartOpensFrame := by
  refine ⟨fun t sq => ⟨rfl, typeSeqByte_toNat_le t sq⟩, by decide, fun t sq s h => ?_, fun t sq s h => ?_⟩
  · rw [exec_encStart, encStartEffect_idle h, stuff_eq_ite]
    rfl
  · rw [exec_encStart, encStartEffect_body h]
    rfl

/-- Settles O21: `encDataEffect` in the two phases, completed. -/
theorem encDataEmitsPayloadByte : Obligations.EncDataEmitsPayloadByte := by
  refine ⟨fun _ => rfl, fun x s h => ?_, fun x s h => ?_⟩
  · rw [exec_encData, encDataEffect_body h, Block.put, stuff_eq_ite]
    rfl
  · rw [exec_encData, encDataEffect_idle h]
    rfl

/-- Settles O22: `encEndEffect` in the two phases, completed. -/
theorem encEndClosesFrame : Obligations.EncEndClosesFrame := by
  refine ⟨rfl, fun s h => ?_, fun s h => ?_⟩
  · rw [exec_encEnd, encEndEffect_body h]
    rfl
  · rw [exec_encEnd, encEndEffect_idle h]
    rfl

end Sys2Proof.Machine
end

section
/-! PROOFS. Family 42_rx_buffer: a delivery accepted (R101) or dropped whole (R102), RX.CLEAR (R104), and what else
empties the buffer (R105). -/

namespace Sys2Proof

/-! ## The word of RX.PUSH (R59, R61) -/

/-- The bits of the pattern lie above the count. -/
theorem argField_pushWord (n : BitVec 10) : argField (0x8000 ||| n.setWidth 16) = n := by
  have hpattern : BitVec.extractLsb' 0 10 (0x8000 : Word) = 0 := rfl
  have hcount : BitVec.extractLsb' 0 10 (n.setWidth 16) = n := by
    ext i hi
    simp [BitVec.getElem_extractLsb', hi, show i < 16 by omega]
  rw [argField, BitVec.extractLsb'_or, hpattern, hcount, BitVec.ofNat_eq_ofNat, BitVec.zero_or]

theorem decode_pushWord (n : BitVec 10) (rxIn : List Byte) :
    decode (0x8000 ||| n.setWidth 16) rxIn = decodeOperands .rxPush (0x8000 ||| n.setWidth 16) rxIn := by
  obtain ⟨r, hr, hop⟩ := Option.map_eq_some_iff.1 (beq_iff_eq.1 (Laws.EncodeSelectsRow.push_words n))
  simp only [decode, hr, hop]

/-- A push whose bytes stand first on `rx_in` takes exactly these (R61). -/
theorem decode_rxPush {w : Word} {bytes : List Byte} (hw : encode (.rxPush bytes) = .cmd w bytes)
    (hn : bytes.length < 1024) (rest : List Byte) : decode w (bytes ++ rest) = .instr (.rxPush bytes) rest := by
  cases hw
  have hcount : (BitVec.ofNat 10 bytes.length).toNat = bytes.length := Nat.mod_eq_of_lt hn
  have hlen : ¬(bytes ++ rest).length < bytes.length := by simp
  simp only [decode_pushWord, decodeOperands, argField_pushWord, hcount, if_neg hlen, List.take_left, List.drop_left]

/-- The count as a 16-bit number, where it fits the field (R59). -/
theorem encode_rxPush {bytes : List Byte} (hn : bytes.length < 1024) :
    encode (.rxPush bytes) = .cmd (0x8000 ||| BitVec.ofNat 16 bytes.length) bytes := by
  rw [encode, BitVec.setWidth_ofNat_of_le_of_lt (by decide) hn]

end Sys2Proof

namespace Sys2Proof.Machine

/-! ## RX.PUSH and RX.CLEAR: each completes in every state -/

section
variable (s : State)

theorem exec_rxPush (bytes : List Byte) : exec (.rxPush bytes) s = .next (s.complete (rxPushEffect bytes s.block)) :=
  exec_command rfl s

theorem exec_rxClear : exec .rxClear s = .next (s.complete (s.block.clearRx, .ok)) :=
  exec_command rfl s

end

/-- A push of no bytes writes back the length it found. -/
theorem rxPushEffect_nil {b : Block} (h : b.rxLen.toNat ≤ Config.maxFrame) : rxPushEffect [] b = (b, .ok) := by
  have hfit : b.rxLen.toNat + ([] : List Byte).length ≤ Config.maxFrame := h
  rw [rxPushEffect_accepted hfit]
  simp [Memory.writeBytes]

/-- The bytes written behind the valid ones, and the length they make, which does not wrap (R101). -/
theorem exec_rxPush_accepted {bytes : List Byte} {s : State} (h : s.block.rxLen.toNat + bytes.length ≤ 512) :
    exec (.rxPush bytes) s = .next (s.complete
      ({ s.block with
          rxBuf := s.block.rxBuf.writeBytes s.block.rxLen.toNat bytes
          rxLen := BitVec.ofNat 10 (s.block.rxLen.toNat + bytes.length) }, .ok)) := by
  rw [exec_rxPush, rxPushEffect_accepted h]

/-- Settles O27: an accepted push completes with its run of writes, which `Memory.read_writeBytes` reads. -/
theorem pushAppendsDelivery : Obligations.PushAppendsDelivery := by
  refine ⟨fun bytes hn => encode_rxPush hn, fun bytes s hfit => ?_, fun s hlen => ?_⟩
  · exact ⟨_, exec_rxPush_accepted hfit, rxLen_push hfit, Memory.read_writeBytes _ _ _, rfl, rfl, rfl⟩
  · rw [exec_rxPush, rxPushEffect_nil hlen]
    rfl

theorem exec_rxPush_overrun {bytes : List Byte} {s : State} (h : 512 < s.block.rxLen.toNat + bytes.length) :
    exec (.rxPush bytes) s = .next (s.complete ({ s.block with rxOvr := true }, .overrun)) := by
  rw [exec_rxPush, rxPushEffect_overrun h]

/-- A push at the head of the inputs with its bytes on `rx_in`: the step takes both, whatever the push then does. -/
theorem step_rxPush {s : State} {w : Word} {inputs : List Input} {bytes rest : List Byte}
    (hin : s.ports.inputs = .cmd w :: inputs) (hw : encode (.rxPush bytes) = .cmd w bytes) (hn : bytes.length < 1024)
    (hrx : s.ports.rxIn = bytes ++ rest) : step s = exec (.rxPush bytes) ((s.withInputs inputs).withRxIn rest) := by
  have hdecode : decode w s.ports.rxIn = .instr (.rxPush bytes) rest := hrx ▸ decode_rxPush hw hn rest
  simp [step, stepInput, stepCommand, hin, hdecode, State.popInput, State.withInputs]

/-- Settles O28: by `exec_rxPush_overrun`, in the state itself and in the one without the word and its bytes. -/
theorem overrunDropsDelivery : Obligations.OverrunDropsDelivery := by
  refine ⟨fun bytes s hov => exec_rxPush_overrun hov, fun s w inputs bytes rest hin hw hn hrx hov => ?_⟩
  rw [step_rxPush hin hw hn hrx]
  exact exec_rxPush_overrun hov

/-- Settles O29: the state that RX.CLEAR completes with, field by field. -/
theorem rxClearEmptiesBuffer : Obligations.RxClearEmptiesBuffer :=
  ⟨rfl, fun s => ⟨_, exec_rxClear s, rfl, rfl, rfl, rfl, rfl, rfl, rfl, rfl, Memory.read_nil⟩⟩

/-! ## What empties the buffer (R105) -/

section
variable (b : Block) (t : PacketType) (sq : BitVec 3) (x : Byte)

@[simp] theorem encStartEffect_rxLen : (encStartEffect t sq b).1.rxLen = b.rxLen := by
  cases h : b.encPhase <;> simp [encStartEffect, h]

@[simp] theorem encStartEffect_rxBuf : (encStartEffect t sq b).1.rxBuf = b.rxBuf := by
  cases h : b.encPhase <;> simp [encStartEffect, h]

@[simp] theorem encDataEffect_rxLen : (encDataEffect x b).1.rxLen = b.rxLen := by
  cases h : b.encPhase <;> simp [encDataEffect, h]

@[simp] theorem encDataEffect_rxBuf : (encDataEffect x b).1.rxBuf = b.rxBuf := by
  cases h : b.encPhase <;> simp [encDataEffect, h]

@[simp] theorem encEndEffect_rxLen : (encEndEffect b).1.rxLen = b.rxLen := by
  cases h : b.encPhase <;> simp [encEndEffect, h]

@[simp] theorem encEndEffect_rxBuf : (encEndEffect b).1.rxBuf = b.rxBuf := by
  cases h : b.encPhase <;> simp [encEndEffect, h]

end

/-- An extraction that is not a consuming success leaves the block alone (R123). -/
theorem consumeOn_extract_eq_self {c : Bool} {B : List Byte} (h : ¬(c = true ∧ ∃ m, extract B = .okMessage m))
    (b : Block) : consumeOn c (extract B) b = b := by
  rw [← extract_status_ok] at h
  simp [consumeOn, h]

theorem consumeOn_okMessage (m : Message) (b : Block) : consumeOn true (.okMessage m) b = b.clearRx := rfl

/-- From `b` to `c` no valid byte of the buffer is lost or altered (R105). -/
def RxKept (b c : Block) : Prop :=
  b.rxLen.toNat ≤ c.rxLen.toNat ∧ ∀ a, a < b.rxLen.toNat → c.rxBuf.read a = b.rxBuf.read a

theorem RxKept.of_eq {b c : Block} (hlen : c.rxLen = b.rxLen) (hbuf : c.rxBuf = b.rxBuf) : RxKept b c :=
  ⟨by rw [hlen], fun a _ => by rw [hbuf]⟩

/-- A push writes behind the valid bytes, or nothing at all (R101, R102). -/
theorem RxKept.push (bytes : List Byte) (b : Block) : RxKept b (rxPushEffect bytes b).1 := by
  by_cases hov : Config.maxFrame < b.rxLen.toNat + bytes.length
  · rw [rxPushEffect_overrun hov]
    exact .of_eq rfl rfl
  · have hfit : b.rxLen.toNat + bytes.length ≤ Config.maxFrame := by omega
    rw [rxPushEffect_accepted hfit]
    refine ⟨?_, fun a ha => ?_⟩
    · simp only [rxLen_push hfit]
      omega
    · rw [Memory.read_writeBytes, if_neg (by omega)]

/-- The instruction is RX.CLEAR, or a consuming RX.EXTRACT of a buffer that holds a Message. -/
def Empties (i : Instr) (b : Block) : Prop :=
  i = .rxClear ∨ ∃ B m, i = .rxExtract true ∧ b.rxBytes = some B ∧ extract B = .okMessage m

theorem commandEffect_rxKept {i : Instr} {b : Block} {e : Block × Response} (h : commandEffect i b = some e)
    (hi : ¬Empties i b) : RxKept b e.1 := by
  cases i with
  | rxClear => exact absurd (.inl rfl) hi
  | rxExtract c =>
    obtain ⟨B, hB, rfl⟩ := Option.map_eq_some_iff.1 h
    have hkeep : ¬(c = true ∧ ∃ m, extract B = .okMessage m) := by
      rintro ⟨rfl, m, hm⟩
      exact hi (.inr ⟨B, m, rfl, hB, hm⟩)
    rw [consumeOn_extract_eq_self hkeep]
    exact .of_eq rfl rfl
  | rxValid =>
    obtain ⟨B, -, rfl⟩ := Option.map_eq_some_iff.1 h
    exact .of_eq rfl rfl
  | typeSeqAcknowledge sq | typeSeqDisconnect sq | typeSeqLinkRequest sq | typeSeqData sq => cases h
  | rxPush bytes => cases h; exact .push _ _
  | encStart t sq => cases h; exact .of_eq (encStartEffect_rxLen _ _ _) (encStartEffect_rxBuf _ _ _)
  | encData x => cases h; exact .of_eq (encDataEffect_rxLen _ _) (encDataEffect_rxBuf _ _)
  | encEnd => cases h; exact .of_eq (encEndEffect_rxLen _) (encEndEffect_rxBuf _)
  | crcClr | crcFold x | crcRd | status => cases h; exact .of_eq rfl rfl

theorem exec_rxKept {i : Instr} {s t : State} (h : exec i s = .next t) (hi : ¬Empties i s.block) :
    RxKept s.block t.block := by
  obtain ⟨-, e, he, rfl⟩ | ⟨ty, sq, -, rfl⟩ := exec_next_cases h
  · exact commandEffect_rxKept he hi
  · exact .of_eq rfl rfl

/-- A consuming RX.EXTRACT of a Message completes with the buffer cleared (R123). -/
theorem exec_rxExtract_okMessage {s : State} {B : List Byte} {m : Message} (hB : s.block.rxBytes = some B)
    (hm : extract B = .okMessage m) :
    exec (.rxExtract true) s = .next (s.complete (s.block.clearRx, .okMessage m)) := by
  rw [exec_command rfl, commandEffect, rxExtractEffect_some hB, hm, consumeOn_okMessage, State.completeRead_some]

/-- Settles O32: what keeps the bytes by `exec_rxKept`; the three that empty the buffer, by the state each leads to. -/
theorem onlyThreeThingsEmptyBuffer : Obligations.OnlyThreeThingsEmptyBuffer := by
  refine ⟨fun i s t h hclear hconsume => ?_, fun s t h => ?_, fun s t B m hB hm h => ?_, fun s t inputs hin h => ?_⟩
  · exact exec_rxKept h (not_or.2 ⟨hclear, hconsume⟩)
  · rw [exec_rxClear] at h
    cases h
    rfl
  · rw [exec_rxExtract_okMessage hB hm] at h
    cases h
    rfl
  · rw [step_reset_block hin h]
    rfl

end Sys2Proof.Machine
end

section
/-! PROOFS. Family 43_rx_extract: the extraction that walks lists is R129's listing with cursors (R116 to R121), and what
RX.EXTRACT and RX.VALID answer and change (R115, R123, R124). -/

namespace Sys2Proof.Machine

/-! ## The first pair (R117) -/

@[simp] theorem byteAt_cons_zero (b : Byte) (l : List Byte) : byteAt (b :: l) 0 = b := rfl

@[simp] theorem byteAt_cons_succ (b : Byte) (l : List Byte) (i : Nat) : byteAt (b :: l) (i + 1) = byteAt l i := rfl

/-- The least pair is at the front, or it is the least pair of the tail, one place on. -/
theorem leastPair_cons_cons (b c : Byte) (l : List Byte) :
    leastPair (b :: c :: l) =
      if b = Config.esc ∧ c = Config.etx then some 0 else (leastPair (c :: l)).map (· + 1) := by
  have hrange : List.range ((b :: c :: l).length - 1) = 0 :: (List.range ((c :: l).length - 1)).map (· + 1) :=
    List.range_succ_eq_map
  rw [leastPair, hrange, List.find?_cons, List.find?_map]
  by_cases hpair : b = Config.esc ∧ c = Config.etx
  · obtain ⟨rfl, rfl⟩ := hpair
    rfl
  · have hfront : (byteAt (b :: c :: l) 0 == 0x10 && byteAt (b :: c :: l) (0 + 1) == 0x03) = false := by
      rw [← Bool.not_eq_true, Bool.and_eq_true, beq_iff_eq, beq_iff_eq]
      exact hpair
    rw [hfront, if_neg hpair]
    rfl

/-- The search that walks the list finds the least index (R117). -/
theorem findPair_eq_leastPair (B : List Byte) : findPair B = leastPair B := by
  induction B with
  | nil => rfl
  | cons b l ih =>
    cases l with
    | nil => rfl
    | cons c l => rw [findPair, leastPair_cons_cons, ih]

/-! ## The checksum scan (R119) -/

/-- A cursor inside the list: the list from it on is its byte and the list from the next place on. -/
theorem drop_eq_byteAt_cons {B : List Byte} {i : Nat} (h : i < B.length) :
    B.drop i = byteAt B i :: B.drop (i + 1) := by
  rw [List.drop_eq_getElem_cons h, byteAt, List.getD_eq_getElem _ _ h]

/-- One turn of the scan over at least two bytes: a doubled 0x10 takes both. -/
theorem crcScan_cons_cons (m : Nat) (c : Word) (b d : Byte) (l : List Byte) :
    crcScan (m + 1) c (b :: d :: l) =
      if b = Config.esc ∧ d = Config.esc then crcScan (m - 1) (fold c b) l else crcScan m (fold c b) (d :: l) := rfl

section
variable {B : List Byte} {p i : Nat} (fuel : Nat)

theorem scanLoop_of_le (h : p ≤ i) (c : Word) : scanLoop B p fuel i c = c := by
  cases fuel with
  | zero => rfl
  | succ fuel => exact if_neg (Nat.not_lt.2 h)

theorem scanLoop_of_lt (h : i < p) (c : Word) :
    scanLoop B p (fuel + 1) i c =
      scanLoop B p fuel (if byteAt B i = Config.esc ∧ byteAt B (i + 1) = Config.esc then i + 2 else i + 1)
        (fold c (byteAt B i)) := if_pos h

end

/-- The scan with a cursor is the scan over the rest of the list: a cursor before the pair has its byte and the one
behind it inside the buffer. -/
theorem scanLoop_eq_crcScan {B : List Byte} {p : Nat} (hp : p < B.length) (fuel i : Nat) (c : Word)
    (hfuel : p - i ≤ fuel) : scanLoop B p fuel i c = crcScan (p - i) c (B.drop i) := by
  induction fuel generalizing i c with
  | zero => rw [scanLoop_of_le 0 (by omega), Nat.le_zero.1 hfuel, crcScan]
  | succ fuel ih =>
    by_cases hi : i < p
    · have hleft : p - i = p - (i + 1) + 1 := by omega
      rw [scanLoop_of_lt fuel hi, hleft, drop_eq_byteAt_cons (by omega), drop_eq_byteAt_cons (by omega),
        crcScan_cons_cons]
      by_cases hdouble : byteAt B i = Config.esc ∧ byteAt B (i + 1) = Config.esc
      · rw [if_pos hdouble, if_pos hdouble]
        exact ih (i + 2) _ (by omega)
      · rw [if_neg hdouble, if_neg hdouble, ← drop_eq_byteAt_cons (by omega)]
        exact ih (i + 1) _ (by omega)
    · rw [scanLoop_of_le _ (by omega), Nat.sub_eq_zero_of_le (by omega), crcScan]

/-! ## The payload copy (R121) -/

/-- One turn of the copy: the byte, and behind a 0x10 the next one skipped. -/
theorem unstuff_cons (b : Byte) (l : List Byte) :
    unstuff (b :: l) = b :: unstuff (if b = Config.esc then l.drop 1 else l) := by
  cases l with
  | nil => simp [unstuff]
  | cons d l =>
    rw [unstuff]
    split <;> rfl

theorem sublist_of_le (B : List Byte) {j p : Nat} (h : p ≤ j) : sublist B j p = [] :=
  List.drop_eq_nil_of_le ((List.length_take_le p B).trans h)

/-- A cursor inside the sub-list: its byte, and the sub-list from the next place on. -/
theorem sublist_eq_byteAt_cons {B : List Byte} {j p : Nat} (hj : j < p) (hp : p ≤ B.length) :
    sublist B j p = byteAt B j :: sublist B (j + 1) p := by
  have hlen : j < (B.take p).length := by
    rw [List.length_take]
    omega
  have hbyte : byteAt (B.take p) j = byteAt B j := by
    rw [byteAt, byteAt, List.getD_eq_getElem?_getD, List.getD_eq_getElem?_getD, List.getElem?_take_of_lt hj]
  rw [sublist, drop_eq_byteAt_cons hlen, hbyte, sublist]

theorem sublist_drop_one (B : List Byte) (j p : Nat) : (sublist B j p).drop 1 = sublist B (j + 1) p :=
  List.drop_drop

section
variable {B : List Byte} {p j : Nat} (fuel : Nat)

theorem copyLoop_of_le (h : p ≤ j) (out : List Byte) : copyLoop B p fuel j out = out := by
  cases fuel with
  | zero => rfl
  | succ fuel => exact if_neg (Nat.not_lt.2 h)

theorem copyLoop_of_lt (h : j < p) (out : List Byte) :
    copyLoop B p (fuel + 1) j out =
      copyLoop B p fuel (if byteAt B j = Config.esc then j + 2 else j + 1) (out ++ [byteAt B j]) := if_pos h

end

/-- The copy with a cursor is the copy of the rest of the region. -/
theorem copyLoop_eq_unstuff {B : List Byte} {p : Nat} (hp : p ≤ B.length) (fuel j : Nat) (out : List Byte)
    (hfuel : p - j ≤ fuel) : copyLoop B p fuel j out = out ++ unstuff (sublist B j p) := by
  induction fuel generalizing j out with
  | zero => rw [copyLoop_of_le 0 (by omega), sublist_of_le B (by omega), unstuff, List.append_nil]
  | succ fuel ih =>
    by_cases hj : j < p
    · rw [copyLoop_of_lt fuel hj, sublist_eq_byteAt_cons hj hp, unstuff_cons, sublist_drop_one]
      by_cases hesc : byteAt B j = Config.esc
      · rw [if_pos hesc, if_pos hesc, ih (j + 2) _ (by omega), List.append_assoc, List.singleton_append]
      · rw [if_neg hesc, if_neg hesc, ih (j + 1) _ (by omega), List.append_assoc, List.singleton_append]
    · rw [copyLoop_of_le _ (by omega), sublist_of_le B (by omega), unstuff, List.append_nil]

/-! ## The whole extraction (R116 to R121) -/

/-- The preamble, byte by byte (R116). -/
theorem take_three_ne_preamble_iff {B : List Byte} (h : 3 ≤ B.length) :
    B.take 3 ≠ Config.preamble ↔ byteAt B 0 ≠ 0x16 ∨ byteAt B 1 ≠ 0x10 ∨ byteAt B 2 ≠ 0x02 := by
  match B, h with
  | a :: b :: c :: l, _ =>
    simp only [List.take_succ_cons, List.take_zero, Config.preamble, ne_eq, List.cons.injEq, and_true, not_and_or]
    rfl

/-- Settles O35: guard by guard, with the pair by `findPair_eq_leastPair`; behind the guards the scan and the copy are
`scanLoop_eq_crcScan` and `copyLoop_eq_unstuff`. -/
theorem extractEqualsListing : Obligations.ExtractEqualsListing := by
  intro B
  unfold extract extractListing
  by_cases hlen : B.length < 9
  · exact (if_pos hlen).trans (if_pos hlen).symm
  · simp only [Config.minFrame, if_neg hlen, take_three_ne_preamble_iff (B := B) (by omega), findPair_eq_leastPair]
    cases leastPair B with
    | none => rfl
    | some p =>
      by_cases hbehind : p + 4 > B.length
      · simp only [if_pos hbehind]
      · have hscan := scanLoop_eq_crcScan (B := B) (p := p) (by omega) p 3 Config.crcInit (Nat.sub_le _ _)
        have hcopy (j : Nat) := copyLoop_eq_unstuff (B := B) (p := p) (by omega) p j [] (Nat.sub_le _ _)
        simp only [if_neg hbehind, extractAt, extractMessage, typeSeqType, ← hscan, hcopy, List.nil_append]
        by_cases hreserved : byteAt B 4 >>> 3 > 3
        · simp only [if_pos hreserved]
          rfl
        · simp only [if_neg hreserved]
          rfl

/-! ## RX.EXTRACT (R115, R123) -/

/-- The four results an extraction can have (R115). -/
theorem extract_results (B : List Byte) :
    extract B = .noFrame ∨ (∃ c e, extract B = .corrupt c e) ∨ (∃ b, extract B = .badType b) ∨
      ∃ m, extract B = .okMessage m := by
  obtain h | ⟨p, -, -, -, -, -, hat⟩ := extract_cases B
  · exact .inl h
  · rw [hat]
    obtain ⟨e, -, h⟩ | ⟨-, h⟩ | ⟨t, -, h⟩ := extractAt_cases B p
    · exact .inr (.inl ⟨_, e, h⟩)
    · exact .inr (.inr (.inl ⟨_, h⟩))
    · exact .inr (.inr (.inr ⟨_, h⟩))

section
variable {s : State} {B : List Byte} (hB : s.block.rxBytes = some B)
include hB

theorem exec_rxExtract (c : Bool) :
    exec (.rxExtract c) s = .next (s.complete (consumeOn c (extract B) s.block, extract B)) := by
  rw [exec_command rfl, commandEffect, rxExtractEffect_some hB, State.completeRead_some]

theorem exec_rxValid : exec .rxValid s = .next (s.complete (s.block, .okValid (isMessage (extract B)))) := by
  rw [exec_command rfl, commandEffect, rxValidEffect_some hB, extract_status_beq_ok, State.completeRead_some]

/-- Without a Message to consume, only the response is given (R123). -/
theorem exec_rxExtract_unconsumed {c : Bool} (h : c = false ∨ ∀ m, extract B ≠ .okMessage m) :
    exec (.rxExtract c) s = .next (s.complete (s.block, extract B)) := by
  have hkeep : ¬(c = true ∧ ∃ m, extract B = .okMessage m) := by
    rintro ⟨rfl, m, hm⟩
    obtain hc | hno := h
    · cases hc
    · exact hno m hm
  rw [exec_rxExtract hB, consumeOn_extract_eq_self hkeep]

end

/-- Settles O36: the results by `extract_results`; the next state by `exec_rxExtract_unconsumed`, or by
`exec_rxExtract_okMessage` field by field. -/
theorem extractCommandConsumes : Obligations.ExtractCommandConsumes := by
  refine ⟨fun c => rfl, extract_results, fun c s B hB h => exec_rxExtract_unconsumed hB h, fun s B m hB hm => ?_⟩
  exact ⟨_, exec_rxExtract_okMessage hB hm, rfl, rfl, Memory.read_nil, rfl, rfl, rfl⟩

/-! ## RX.VALID (R124) -/

theorem isMessage_iff (r : Response) : isMessage r = true ↔ ∃ m, r = .okMessage m := by
  cases r <;> simp [isMessage]

/-- Where RX.VALID answered 1, the buffer it left as it was holds a Message. -/
theorem exec_rxValid_true {s t : State} (h : exec .rxValid s = .next t)
    (hresp : t.ports.resp = s.ports.resp ++ [.okValid true]) :
    ∃ B m, t.block.rxBytes = some B ∧ extract B = .okMessage m := by
  cases hB : s.block.rxBytes with
  | none =>
    rw [exec_command rfl, commandEffect, rxValidEffect, hB] at h
    cases h
  | some B =>
    rw [exec_rxValid hB] at h
    cases h
    have hvalid : isMessage (extract B) = true := by simpa using hresp
    obtain ⟨m, hm⟩ := (isMessage_iff _).1 hvalid
    exact ⟨B, m, hB, hm⟩

/-- Settles O37: the probe by `exec_rxValid`; the extraction behind it by `exec_rxValid_true`. -/
theorem rxValidProbes : Obligations.RxValidProbes := by
  refine ⟨rfl, fun s B hB => exec_rxValid hB, fun s t h hresp => ?_⟩
  obtain ⟨B, m, hB, hm⟩ := exec_rxValid_true h hresp
  exact ⟨_, m, exec_rxExtract_okMessage hB hm, rfl⟩

end Sys2Proof.Machine
end

section
/-! PROOFS. Family 44_link_session_environment: the send gate (R141, R142), completions (R143), the expiry of the
inactivity timer (R146), the keepalive tick (R150), and that nothing connects (R151, R152). -/

namespace Sys2Proof.Machine

/-! ## ENCODE on the block (R64, R89) -/

/-- On an idle encoder, ENCODE appends the frame to `tx_out`, each of its commands answering OK. -/
theorem encodeOnBlock_idle {s : State} (h : s.block.encPhase = .idle) (t : PacketType) (sq : BitVec 3)
    (payload : List Byte) :
    encodeOnBlock t sq payload s =
      ({ s with
          block := { s.block with
            txCrc := checksum (logicalBytes t sq payload)
            txOut := s.block.txOut ++ encodeFrame t sq payload }
          ports := { s.ports with resp := s.ports.resp ++ List.replicate (payload.length + 2) .ok } },
        encodeFrame t sq payload) := by
  have hresp : Response.ok :: (List.replicate payload.length .ok ++ [.ok]) =
      List.replicate (payload.length + 2) .ok := by
    rw [← List.replicate_succ', ← List.replicate_succ]
  rw [encodeOnBlock, encStartEffect_idle h, foldl_encData _ _ rfl, encEndEffect_body rfl]
  simp [State.complete, Block.emit, encodeFrame, logicalBytes, checksum, stuff_channel, h, hresp]

/-- ENC.DATA for each payload byte, in any phase, leaves the environment alone. -/
theorem foldl_encData_env (payload : List Byte) (s : State) :
    (payload.foldl (fun s b => s.complete (encDataEffect b s.block)) s).env = s.env := by
  induction payload generalizing s with
  | nil => rfl
  | cons b bs ih => rw [List.foldl_cons, ih, State.complete_env]

@[simp] theorem encodeOnBlock_env (t : PacketType) (sq : BitVec 3) (payload : List Byte) (s : State) :
    (encodeOnBlock t sq payload s).1.env = s.env :=
  foldl_encData_env payload (s.complete (encStartEffect t sq s.block))

/-! ## The send gate (R141, R142) -/

/-- The state in which an admitted `send` encodes: the gate closed, the sequence counter advanced. -/
def State.admitSend (t : PacketType) (s : State) : State :=
  { s with env := { s.env with busy := true, seqCtr := sendCtr t s.env } }

section
variable {s : State} (t : PacketType) (payload : List Byte)

theorem send_busy (h : s.env.busy = true) : send t payload s = (s, false) := by
  simp [send, h]

/-- A free link: ENCODE on the block, its bytes counted as outstanding and written once. -/
theorem send_free (h : s.env.busy = false) :
    send t payload s =
      (State.output
        { (encodeOnBlock t (sendSeq t s.env) payload (s.admitSend t)).1 with
          env := { (s.admitSend t).env with
            outstanding := (encodeOnBlock t (sendSeq t s.env) payload (s.admitSend t)).2.length } }
        (.write (encodeOnBlock t (sendSeq t s.env) payload (s.admitSend t)).2), true) := by
  rw [← encodeOnBlock_env t (sendSeq t s.env) payload (s.admitSend t)]
  simp [send, h, State.admitSend]

/-- A free link and an idle encoder: the frame is emitted, counted and written. -/
theorem send_free_idle (h : s.env.busy = false) (hidle : s.block.encPhase = .idle) :
    send t payload s =
      ({ block := { s.block with
            txCrc := checksum (logicalBytes t (sendSeq t s.env) payload)
            txOut := s.block.txOut ++ encodeFrame t (sendSeq t s.env) payload }
         env := { s.env with
            busy := true
            seqCtr := sendCtr t s.env
            outstanding := (encodeFrame t (sendSeq t s.env) payload).length }
         ports := { s.ports with
            resp := s.ports.resp ++ List.replicate (payload.length + 2) .ok
            host := s.ports.host ++ [.write (encodeFrame t (sendSeq t s.env) payload)] } }, true) := by
  have hadmit : (s.admitSend t).block.encPhase = .idle := hidle
  rw [send_free t payload h, encodeOnBlock_idle hadmit]
  rfl

end

/-- A data frame carries the counter as its `send` leaves it, pre-incremented (R142). -/
theorem sendSeq_eq_sendCtr (t : PacketType) (env : Env) : sendSeq t env = if t = .data then sendCtr t env else 0 := by
  by_cases ht : t = .data <;> simp [sendSeq, sendCtr, ht]

/-- The counter and the number of a frame, with the modulus of R142 written out. -/
theorem seqCtr_add_one (c : BitVec 3) : c + 1 = BitVec.ofNat 3 ((c.toNat + 1) % 8) :=
  BitVec.eq_of_toNat_eq (by simp [BitVec.toNat_add])

/-- Settles O53: `send_busy`, and `send_free_idle` with the number of the frame by the type of the packet. -/
theorem sendGateAdmitsOneFrame : Obligations.SendGateAdmitsOneFrame := by
  refine ⟨fun t payload s hbusy => ⟨send_busy t payload hbusy, ?_⟩, fun t payload s hfree hidle => ?_⟩
  · rw [handleEvent, handleSend, send_busy t payload hbusy]
    rfl
  · intro ctr sq frame
    have hctr : sendCtr t s.env = ctr := by rw [sendCtr, seqCtr_add_one]
    have hsq : sendSeq t s.env = sq := by rw [sendSeq_eq_sendCtr, hctr]
    have hsend := send_free_idle t payload hfree hidle
    rw [hctr, hsq] at hsend
    refine ⟨hsend, ?_⟩
    rw [handleEvent, handleSend, hsend]

/-! ## Completions and expiries (R143, R146) -/

section
variable (k : Nat) (s : State)

@[simp] theorem handleCompletion_block : (handleCompletion k s).block = s.block := by
  unfold handleCompletion
  split <;> rfl

/-- `outstanding` saturates at 0, and `busy` outlasts only a remainder. -/
theorem handleCompletion_env :
    (handleCompletion k s).env =
      { s.env with
        outstanding := s.env.outstanding - k
        busy := s.env.busy && decide (s.env.outstanding - k ≠ 0) } := by
  have hbusy : (if s.env.outstanding - k = 0 then false else s.env.busy) =
      (s.env.busy && decide (s.env.outstanding - k ≠ 0)) := by
    by_cases hleft : s.env.outstanding - k = 0 <;> simp [hleft]
  rw [← hbusy]
  unfold handleCompletion
  split <;> rfl

/-- Only a completion of more than is outstanding puts anything out. -/
theorem handleCompletion_ports :
    (handleCompletion k s).ports =
      if s.env.outstanding < k then (s.output (.diagnostic .writeOverrun)).ports else s.ports := by
  unfold handleCompletion
  split <;> rfl

end

/-- Settles O55: the state `handleCompletion` leads to, part by part. -/
theorem completionReleasesBusy : Obligations.CompletionReleasesBusy := by
  intro k s
  refine ⟨handleCompletion k s, rfl, handleCompletion_block k s, ?_, fun hle => ?_, fun hlt => ?_, ?_⟩
  · rw [handleCompletion_env]
  · rw [handleCompletion_env, handleCompletion_ports, if_neg (by omega)]
    exact ⟨Nat.sub_add_cancel hle, rfl⟩
  · rw [handleCompletion_env, handleCompletion_ports, if_pos hlt]
    exact ⟨Nat.sub_eq_zero_of_le hlt.le, rfl⟩
  · rw [handleCompletion_env]

/-- Settles O58: the handler's next state; its block and ports are those `exec_rxClear` completes with. -/
theorem inactivityDiscardsBuffer : Obligations.InactivityDiscardsBuffer := by
  intro s harmed
  refine ⟨{ s.complete (s.block.clearRx, .ok) with env := { s.env with inactArmed := false, unread := [] } }, ?_, rfl,
    exec_rxClear s⟩
  rw [handleEvent, handleInactivity, if_pos harmed]
  rfl

/-! ## The keepalive tick (R150) -/

section
variable {s : State}

theorem handleKeepalive_attempts (hconn : s.env.connected = false) (hqueue : s.env.sendQueue = []) :
    handleKeepalive s =
      if (send .linkRequest [] s).2 then (send .linkRequest [] s).1
      else (send .linkRequest [] s).1.output (.diagnostic .linkBusy) :=
  if_pos ⟨hconn, hqueue⟩

theorem handleKeepalive_of_connected_or_queued (h : s.env.connected = true ∨ s.env.sendQueue ≠ []) : handleKeepalive s = s := by
  refine if_neg ?_
  rintro ⟨hconn, hqueue⟩
  simp [hconn, hqueue] at h

end

/-- The reference frame: an empty linkRequest, its typeSeq byte 0x10 doubled. -/
theorem encodeFrame_linkRequest :
    encodeFrame .linkRequest 0 [] = [0x16, 0x10, 0x02, 0x01, 0x10, 0x10, 0x10, 0x03, 0x00, 0x5C] := by decide

/-- Settles O59: the tick is `send` behind its guard, which `send_busy` and `send_free` answer. -/
theorem keepaliveAttemptsLinkRequest : Obligations.KeepaliveAttemptsLinkRequest := by
  refine ⟨fun s hconn hqueue hbusy => ?_, fun s hconn hqueue hfree => ?_, fun s h => ?_, fun s hfree hidle => ?_⟩
  · rw [handleEvent, handleKeepalive_attempts hconn hqueue, send_busy _ _ hbusy]
    rfl
  · have hsent : (send .linkRequest [] s).2 = true := by rw [send_free _ _ hfree]
    rw [handleEvent, handleKeepalive_attempts hconn hqueue, if_pos hsent]
    exact ⟨rfl, hsent⟩
  · rw [handleEvent, handleKeepalive_of_connected_or_queued h]
  · rw [send_free_idle _ _ hfree hidle, ← encodeFrame_linkRequest]
    rfl

/-! ## Nothing connects (R151, R152) -/

/-- What R151 and R152 speak of: the flag and the queue. -/
def Env.connection (e : Env) : Bool × List Message := (e.connected, e.sendQueue)

theorem exec_env {i : Instr} {s t : State} (h : exec i s = .next t) : t.env = s.env := by
  obtain ⟨-, e, -, rfl⟩ | ⟨ty, sq, -, rfl⟩ := exec_next_cases h <;> rfl

theorem send_connection (t : PacketType) (payload : List Byte) (s : State) :
    (send t payload s).1.env.connection = s.env.connection := by
  cases h : s.env.busy with
  | true => rw [send_busy t payload h]
  | false => rw [send_free t payload h]; rfl

theorem handleCompletion_connection (k : Nat) (s : State) :
    (handleCompletion k s).env.connection = s.env.connection := by
  rw [handleCompletion_env]
  rfl

theorem handleKeepalive_connection (s : State) : (handleKeepalive s).env.connection = s.env.connection := by
  by_cases h : s.env.connected = false ∧ s.env.sendQueue = []
  · rw [handleKeepalive_attempts h.1 h.2]
    split <;> exact send_connection _ _ _
  · rw [handleKeepalive, if_neg h]

theorem onDelivered_connection (s : State) (r : Response) :
    (onDelivered s r).env.connection = s.env.connection := by
  obtain ⟨-, henv, -⟩ := onDelivered_frame s r
  rw [henv]
  rfl

theorem handleDataAvailable_connection {advertised count : Nat} {s t : State}
    (h : handleDataAvailable advertised count s = .next t) : t.env.connection = s.env.connection := by
  simp only [handleDataAvailable] at h
  split at h
  next u r hdeliver =>
    cases h
    obtain ⟨henv, -⟩ := deliver_frame hdeliver
    rw [onDelivered_connection, henv]
    split <;> rfl
  · cases h
  · cases h

/-- No event of the environment sets the flag or fills the queue. -/
theorem handleEvent_connection {e : Event} {s t : State} (h : handleEvent e s = .next t) :
    t.env.connection = s.env.connection := by
  cases e with
  | send ty payload => cases h; exact send_connection ty payload s
  | completion k => cases h; exact handleCompletion_connection k s
  | arrive bytes => cases h; rfl
  | dataAvailable advertised count => exact handleDataAvailable_connection h
  | inactivityElapsed =>
    rw [handleEvent, handleInactivity] at h
    split at h <;> cases h
    rfl
  | keepaliveTick => cases h; exact handleKeepalive_connection s
  | repoint => cases h

theorem step_connection {s t : State} (h : step s = .next t) : t.env.connection = s.env.connection := by
  obtain rfl | ⟨_, _, _, _, -, -, hexec⟩ | ⟨_, _, _, -, -, rfl⟩ | ⟨_, _, _, -, -, hexec⟩ | ⟨_, _, -, hevent⟩ |
    ⟨_, _, -, rfl⟩ | ⟨_, _, _, _, _, -, -, -, rfl⟩ := step_next_cases h
  · rfl
  · rw [exec_env hexec, State.withRxIn_env, State.popInput_env]
  · rfl
  · rw [exec_env hexec, State.popInput_env]
  · rw [handleEvent_connection hevent, State.popInput_env]
  · rw [signalEffect_env, State.popInput_env]
  · rw [signalEffect_env, State.whileWaiting_env]

/-- Settles O60: flag and queue together by `step_connection`; the reset values as they stand. -/
theorem nothingConnects : Obligations.NothingConnects :=
  ⟨fun _ _ h => Prod.mk.inj (step_connection h), rfl, rfl⟩

end Sys2Proof.Machine
end

section
/-! PROOFS. Family other: the decoder and the encoder of the command word and of the typeSeq byte undo each other (R51,
R59, R61). -/

namespace Sys2Proof

/-! ## From an instruction to its encoding and back -/

/-- The encoding of a command is decoded by the operands of the row it lies in. -/
theorem decode_encode {i : Instr} {w : Word} {data : List Byte} {op : Op} (hw : encode i = .cmd w data)
    (hop : Laws.EncodeSelectsRow.rowOf i = some op) (hrow : Laws.EncodeSelectsRow.Statement i) (rxIn : List Byte) :
    decode w rxIn = decodeOperands op w rxIn := by
  simp only [Laws.EncodeSelectsRow.Statement, Laws.EncodeSelectsRow.inItsRow, hw, hop, beq_iff_eq] at hrow
  obtain ⟨r, hr, rfl⟩ := Option.map_eq_some_iff.1 hrow
  simp only [decode, hr]

theorem decodeEncoded_of_operands {i : Instr} {w : Word} {data : List Byte} {op : Op} (hw : encode i = .cmd w data)
    (hop : Laws.EncodeSelectsRow.rowOf i = some op) (hrow : Laws.EncodeSelectsRow.Statement i) {pending : List Byte}
    (h : decodeOperands op w (data ++ pending) = .instr i pending) :
    decodeEncoded (encode i) pending = some (i, pending) := by
  simp only [hw, decodeEncoded, decode_encode hw hop hrow, h]

/-- An operand in the low bits is read back from behind a pattern that leaves these bits 0. -/
theorem extractLsb'_or_setWidth {k : Nat} {p : Word} (hk : k ≤ 16) (hp : p.extractLsb' 0 k = 0) (x : BitVec k) :
    (p ||| x.setWidth 16).extractLsb' 0 k = x := by
  have hx : BitVec.extractLsb' 0 k (x.setWidth 16) = x := by
    ext i hi
    simp [BitVec.getElem_extractLsb', hi, show i < 16 by omega]
  rw [BitVec.extractLsb'_or, hp, hx, BitVec.ofNat_eq_ofNat, BitVec.zero_or]

/-- The two operands of ENC.START stand side by side in its word. -/
theorem encStartWord_fields (t : PacketType) : ∀ sq : BitVec 3,
    (0x4000 ||| (t.bits.setWidth 16 <<< 3) ||| sq.setWidth 16 : Word).extractLsb' 3 2 = t.bits ∧
      (0x4000 ||| (t.bits.setWidth 16 <<< 3) ||| sq.setWidth 16 : Word).extractLsb' 0 3 = sq := by
  cases t <;> decide

theorem rxExtractWord_bit : ∀ c : Bool, (0x9000 ||| (BitVec.ofBool c).setWidth 16 : Word).getLsbD 0 = c := by decide

theorem encode_typeSeqInstr (t : PacketType) (sq : BitVec 3) :
    encode (typeSeqInstr t sq) = .typeSeq (typeSeqByte t sq) := by
  cases t <;> rfl

theorem wellFormed_typeSeqInstr (t : PacketType) (sq : BitVec 3) : (typeSeqInstr t sq).WellFormed := by
  cases t <;> rfl

theorem decodeTypeSeq_typeSeqByte (t : PacketType) (sq : BitVec 3) :
    decodeTypeSeq (typeSeqByte t sq) = some (typeSeqInstr t sq) := by
  rw [decodeTypeSeq, typeSeqType_typeSeqByte, typeSeqSeq_typeSeqByte, Option.map_some]

theorem decodeEncoded_typeSeqInstr (t : PacketType) (sq : BitVec 3) (pending : List Byte) :
    decodeEncoded (encode (typeSeqInstr t sq)) pending = some (typeSeqInstr t sq, pending) := by
  rw [encode_typeSeqInstr, decodeEncoded, decodeTypeSeq_typeSeqByte, Option.map_some]

/-- Settles O2: each command through its row and its operand's bits, a push by its count, a typeSeq byte by its
fields. -/
theorem decodeOfEncode : Obligations.DecodeOfEncode := by
  intro i hwf pending
  cases i with
  | crcClr => exact decodeEncoded_of_operands rfl rfl Laws.EncodeSelectsRow.crcClr rfl
  | crcFold b =>
    refine decodeEncoded_of_operands rfl rfl (Laws.EncodeSelectsRow.crcFold b) ?_
    rw [decodeOperands, extractLsb'_or_setWidth (by decide) rfl, List.nil_append]
  | crcRd => exact decodeEncoded_of_operands rfl rfl Laws.EncodeSelectsRow.crcRd rfl
  | encStart t sq =>
    refine decodeEncoded_of_operands rfl rfl (Laws.EncodeSelectsRow.encStart t sq) ?_
    obtain ⟨htype, hseq⟩ := encStartWord_fields t sq
    rw [decodeOperands, htype, hseq, PacketType.ofBits_bits, List.nil_append]
  | encData b =>
    refine decodeEncoded_of_operands rfl rfl (Laws.EncodeSelectsRow.encData b) ?_
    rw [decodeOperands, extractLsb'_or_setWidth (by decide) rfl, List.nil_append]
  | encEnd => exact decodeEncoded_of_operands rfl rfl Laws.EncodeSelectsRow.encEnd rfl
  | rxPush bytes =>
    have hn : bytes.length < 1024 := of_decide_eq_true hwf
    simp only [encode, decodeEncoded, decode_rxPush rfl hn]
  | rxExtract c =>
    refine decodeEncoded_of_operands rfl rfl (Laws.EncodeSelectsRow.rxExtract c) ?_
    rw [decodeOperands, rxExtractWord_bit, List.nil_append]
  | rxValid => exact decodeEncoded_of_operands rfl rfl Laws.EncodeSelectsRow.rxValid rfl
  | rxClear => exact decodeEncoded_of_operands rfl rfl Laws.EncodeSelectsRow.rxClear rfl
  | status => exact decodeEncoded_of_operands rfl rfl Laws.EncodeSelectsRow.status rfl
  | typeSeqAcknowledge sq => exact decodeEncoded_typeSeqInstr .acknowledge sq pending
  | typeSeqDisconnect sq => exact decodeEncoded_typeSeqInstr .disconnect sq pending
  | typeSeqLinkRequest sq => exact decodeEncoded_typeSeqInstr .linkRequest sq pending
  | typeSeqData sq => exact decodeEncoded_typeSeqInstr .data sq pending

/-! ## From an encoding to its instruction and back -/

/-- What decodes lies in a row of the table, whose operands it is read by. -/
theorem exists_row_of_decode {w : Word} {rxIn : List Byte} {i : Instr} {rest : List Byte}
    (h : decode w rxIn = .instr i rest) :
    ∃ r ∈ opTable, w &&& r.mask = r.pattern ∧ decodeOperands r.op w rxIn = .instr i rest := by
  cases hr : selectRow w with
  | none => simp [decode, hr] at h
  | some r =>
    refine ⟨r, List.mem_of_find?_eq_some hr, ?_, by simpa only [decode, hr] using h⟩
    simpa [OpRow.selects] using List.find?_some hr

/-- A word whose bits from `k` on are a pattern's is the pattern and its own low bits. -/
theorem eq_pattern_or_low {n : Nat} {w p : BitVec n} (k : Nat) (h : w &&& (BitVec.allOnes n <<< k) = p) :
    w = p ||| (w.extractLsb' 0 k).setWidth n := by
  subst h
  ext i hi
  by_cases hik : i < k
  · simp [hik, BitVec.getLsbD_eq_getElem hi]
  · simp [hik, hi]

theorem eq_pattern_of_full_mask {w p : Word} (h : w &&& 0xFFFF = p) : w = p := by
  rw [← h]
  exact BitVec.and_allOnes.symm

/-- The low five bits of ENC.START's word are its two operands. -/
theorem typeAndSeq_fields : ∀ v : BitVec 5,
    v.setWidth 16 = ((v.extractLsb' 3 2).setWidth 16 <<< 3 ||| (v.extractLsb' 0 3).setWidth 16 : Word) := by
  decide

theorem encStartWord_eq {w : Word} (h : w &&& 0xFFE0 = 0x4000) :
    w = 0x4000 ||| ((w.extractLsb' 3 2).setWidth 16 <<< 3) ||| (w.extractLsb' 0 3).setWidth 16 := by
  have hlow := typeAndSeq_fields (w.extractLsb' 0 5)
  have htype : (w.extractLsb' 0 5).extractLsb' 3 2 = w.extractLsb' 3 2 := by
    ext i hi
    simp
  have hseq : (w.extractLsb' 0 5).extractLsb' 0 3 = w.extractLsb' 0 3 := by
    ext i hi
    simp
  rw [htype, hseq] at hlow
  rw [BitVec.or_assoc, ← hlow]
  exact eq_pattern_or_low 5 h

theorem rxExtractWord_eq {w : Word} (h : w &&& 0xFFFE = 0x9000) :
    w = 0x9000 ||| (BitVec.ofBool (w.getLsbD 0)).setWidth 16 := by
  have hbit : w.extractLsb' 0 1 = BitVec.ofBool (w.getLsbD 0) := by
    ext i hi
    simp [show i = 0 by omega]
  rw [← hbit]
  exact eq_pattern_or_low 1 h

theorem encodes_without_data {i : Instr} {w p : Word} {rxIn : List Byte} (hw : w = p) (hi : encode i = .cmd p [])
    (hwf : i.WellFormed) : i.WellFormed ∧ ∃ data, encode i = .cmd w data ∧ rxIn = data ++ rxIn :=
  ⟨hwf, [], by rw [hi, hw], rfl⟩

/-- A push that has its bytes encodes to its word and these bytes. -/
theorem encode_rxPush_take {w : Word} (hw : w &&& 0xFC00 = 0x8000) {rxIn : List Byte}
    (hlen : (argField w).toNat ≤ rxIn.length) :
    (Instr.rxPush (rxIn.take (argField w).toNat)).WellFormed ∧
      encode (.rxPush (rxIn.take (argField w).toNat)) = .cmd w (rxIn.take (argField w).toNat) := by
  have htake := List.length_take_of_le hlen
  refine ⟨decide_eq_true (htake.symm ▸ (argField w).isLt), ?_⟩
  rw [encode, htake, BitVec.ofNat_toNat, BitVec.setWidth_eq, argField, ← eq_pattern_or_low 10 hw]

/-- A command read by the operands of its row is well-formed and encodes to the word and the bytes taken: row by row of
R59, a fixed word, or a pattern with its operand in the low bits. -/
theorem encode_of_decodeOperands {r : OpRow} (hr : r ∈ opTable) {w : Word} (hw : w &&& r.mask = r.pattern)
    {rxIn : List Byte} {i : Instr} {rest : List Byte} (h : decodeOperands r.op w rxIn = .instr i rest) :
    i.WellFormed ∧ ∃ data, encode i = .cmd w data ∧ rxIn = data ++ rest := by
  simp only [opTable, List.mem_cons, List.not_mem_nil, or_false] at hr
  obtain rfl | rfl | rfl | rfl | rfl | rfl | rfl | rfl | rfl | rfl | rfl := hr
  · cases h; exact encodes_without_data (eq_pattern_of_full_mask hw) rfl rfl
  · cases h; exact encodes_without_data (eq_pattern_or_low 8 hw) rfl rfl
  · cases h; exact encodes_without_data (eq_pattern_of_full_mask hw) rfl rfl
  · cases h; exact encodes_without_data (encStartWord_eq hw) (by rw [encode, PacketType.bits_ofBits]) rfl
  · cases h; exact encodes_without_data (eq_pattern_or_low 8 hw) rfl rfl
  · cases h; exact encodes_without_data (eq_pattern_of_full_mask hw) rfl rfl
  · simp only [decodeOperands] at h
    split at h
    · cases h
    · cases h
      obtain ⟨hwf, henc⟩ := encode_rxPush_take hw (rxIn := rxIn) (by omega)
      exact ⟨hwf, _, henc, (List.take_append_drop _ _).symm⟩
  · cases h; exact encodes_without_data (rxExtractWord_eq hw) rfl rfl
  · cases h; exact encodes_without_data (eq_pattern_of_full_mask hw) rfl rfl
  · cases h; exact encodes_without_data (eq_pattern_of_full_mask hw) rfl rfl
  · cases h; exact encodes_without_data (eq_pattern_of_full_mask hw) rfl rfl

theorem typeSeqByte_of_typeSeqType {b : Byte} {t : PacketType} (h : typeSeqType b = some t) :
    typeSeqByte t (typeSeqSeq b) = b := by
  have ht := (typeSeqType_eq_some_iff b t).1 h
  apply BitVec.eq_of_toNat_eq
  rw [typeSeqByte_toNat, typeSeqSeq_toNat]
  omega

/-- Settles O3: `encode_of_decodeOperands` for the row a word lies in; a typeSeq byte is put together from its
fields. -/
theorem encodeOfDecode : Obligations.EncodeOfDecode := by
  refine ⟨fun w rxIn i rest h => ?_, fun b i h => ?_⟩
  · obtain ⟨r, hr, hw, hop⟩ := exists_row_of_decode h
    exact encode_of_decodeOperands hr hw hop
  · obtain ⟨t, ht, rfl⟩ := Option.map_eq_some_iff.1 h
    exact ⟨wellFormed_typeSeqInstr t _, by rw [encode_typeSeqInstr, typeSeqByte_of_typeSeqType ht]⟩

/-- Settles O1: the sample words and bytes, decoded. -/
theorem tableWordsDecode : Obligations.TableWordsDecode := by
  unfold Obligations.TableWordsDecode
  decide

end Sys2Proof
end

section
/-! PROOFS. Family other: the assembler reads back what the printer writes (R63, R64). -/

namespace Sys2Proof.Machine

/-! ## Reading a word, a byte and a list of bytes -/

/-- A character that neither ends a word nor begins a comment. -/
def isWordChar (c : Char) : Bool := !(c == ' ' || c == '\t' || c == ',' || c == '[' || c == ']' || c == ';')

theorem lexFrom_word {w : List Char} (hw : w.all isWordChar = true) (v rest : List Char) :
    lexFrom v (w ++ rest) = lexFrom (v ++ w) rest := by
  induction w generalizing v with
  | nil => simp
  | cons c cs ih =>
    simp only [List.all_cons, Bool.and_eq_true] at hw
    obtain ⟨hc, hcs⟩ := hw
    simp only [isWordChar, Bool.not_eq_true', Bool.or_eq_false_iff, beq_eq_false_iff_ne] at hc
    obtain ⟨⟨⟨⟨⟨hspace, htab⟩, hcomma⟩, hopen⟩, hclose⟩, -⟩ := hc
    rw [List.cons_append, lexFrom]
    simp [hspace, htab, hcomma, hopen, hclose, ih hcs]

theorem lexFrom_last {w : List Char} (hw : w.all isWordChar = true) (hne : w ≠ []) : lexFrom [] w = [.word w] := by
  have h := lexFrom_word hw [] []
  rw [List.append_nil, List.nil_append] at h
  rw [h, lexFrom, flushWord, if_neg hne]

theorem lexFrom_word_space {w : List Char} (hw : w.all isWordChar = true) (hne : w ≠ []) (cs : List Char) :
    lexFrom [] (w ++ ' ' :: cs) = .word w :: lexFrom [] cs := by
  rw [lexFrom_word hw, List.nil_append, lexFrom, if_pos (.inl rfl), flushWord, if_neg hne]

theorem lexFrom_word_comma {w : List Char} (hw : w.all isWordChar = true) (hne : w ≠ []) (cs : List Char) :
    lexFrom [] (w ++ ", ".toList ++ cs) = .word w :: .comma :: lexFrom [] cs := by
  have hcomma : lexFrom w (", ".toList ++ cs) = flushWord w (.comma :: lexFrom [] cs) := rfl
  rw [List.append_assoc, lexFrom_word hw, List.nil_append, hcomma, flushWord, if_neg hne]

theorem lexFrom_word_close {w : List Char} (hw : w.all isWordChar = true) (hne : w ≠ []) :
    lexFrom [] (w ++ [']']) = [.word w, .closeBracket] := by
  have hclose : lexFrom w [']'] = flushWord w [.closeBracket] := rfl
  rw [lexFrom_word hw, List.nil_append, hclose, flushWord, if_neg hne]

theorem lex_of_not_mem {line : List Char} (h : ';' ∉ line) : lex line = lexFrom [] line := by
  have hkeep : stripComment line = line := List.takeWhile_eq_self_iff.2 fun c hc => by
    have hne : c ≠ ';' := fun heq => h (heq ▸ hc)
    simpa using hne
  rw [lex, hkeep]

theorem semicolon_not_mem_of_wordChars {w : List Char} (hw : w.all isWordChar = true) : ';' ∉ w := fun h =>
  absurd (List.all_eq_true.1 hw _ h) (by decide)

/-! ## Operands -/

theorem digitChar_isWordChar : ∀ v < 16, isWordChar (digitChar v) = true := by decide

theorem showByte_isWordChar (b : Byte) : (showByte b).all isWordChar = true := by
  have hb := b.isLt
  simp [showByte, digitChar_isWordChar (b.toNat / 16) (by omega), digitChar_isWordChar (b.toNat % 16) (by omega)]

theorem parseByte_showByte : ∀ b : Byte, parseByte (showByte b) = some b := by decide

theorem showByte_ne_nil (b : Byte) : showByte b ≠ [] := List.cons_ne_nil _ _

theorem lexFrom_showBytes (bs : List Byte) :
    lexFrom [] (showBytes bs) = bs.map (fun b => .word (showByte b)) ++ [.closeBracket] := by
  induction bs with
  | nil => rfl
  | cons b bs ih =>
    cases bs with
    | nil => exact lexFrom_word_close (showByte_isWordChar b) (showByte_ne_nil b)
    | cons c bs => rw [showBytes, lexFrom_word_space (showByte_isWordChar b) (showByte_ne_nil b), ih]; rfl

theorem parseBytes_showBytes (bs : List Byte) : parseBytes (lexFrom [] (showBytes bs)) = some bs := by
  rw [lexFrom_showBytes]
  induction bs with
  | nil => rfl
  | cons b bs ih => rw [List.map_cons, List.cons_append, parseBytes, parseByte_showByte, ih]

theorem semicolon_not_mem_showBytes (bs : List Byte) : ';' ∉ showBytes bs := by
  induction bs with
  | nil => decide
  | cons b bs ih =>
    have hb := semicolon_not_mem_of_wordChars (showByte_isWordChar b)
    cases bs with
    | nil => simp [showBytes, hb]
    | cons c bs => simp [showBytes, hb, ih]

theorem showType_isWordChar (t : PacketType) : (showType t).all isWordChar = true := by cases t <;> decide
theorem showType_ne_nil (t : PacketType) : showType t ≠ [] := by cases t <;> decide
theorem parseType_showType (t : PacketType) : parseType (showType t) = some t := by cases t <;> decide
theorem showSeq_isWordChar : ∀ sq : BitVec 3, (showSeq sq).all isWordChar = true := by decide
theorem showSeq_ne_nil (sq : BitVec 3) : showSeq sq ≠ [] := List.cons_ne_nil _ _
theorem parseSeq_showSeq : ∀ sq : BitVec 3, parseSeq (showSeq sq) = some sq := by decide

/-! ## Lines -/

section
variable {m : List Char} (hm : m.all isWordChar = true) (hne : m ≠ [])
include hm hne

theorem assemble_byte_line (b : Byte) : assemble (m ++ ' ' :: showByte b) = parseOne m (showByte b) := by
  have hb := showByte_isWordChar b
  have hsemi : ';' ∉ m ++ ' ' :: showByte b := by
    simp [semicolon_not_mem_of_wordChars hm, semicolon_not_mem_of_wordChars hb]
  rw [assemble, lex_of_not_mem hsemi, lexFrom_word_space hm hne, lexFrom_last hb (showByte_ne_nil b), parseTokens]

theorem assemble_list_line (bs : List Byte) :
    assemble (m ++ " [".toList ++ showBytes bs) = parseList m (lexFrom [] (showBytes bs)) := by
  have hsemi : ';' ∉ m ++ " [".toList ++ showBytes bs := by
    simp [semicolon_not_mem_of_wordChars hm, semicolon_not_mem_showBytes]
  rw [assemble, lex_of_not_mem hsemi, List.append_assoc]
  exact congrArg parseTokens (lexFrom_word_space hm hne ('[' :: showBytes bs))

end

section
variable (t : PacketType) (sq : BitVec 3) (bs : List Byte)

/-- ENCODE's line, cut where its words end. -/
theorem showPseudo_encode :
    showPseudo (.encode t sq bs) =
      "ENCODE".toList ++ ' ' :: (showType t ++ ", ".toList ++ (showSeq sq ++ ", ".toList ++ '[' :: showBytes bs)) := by
  have hline : showPseudo (.encode t sq bs) =
    "ENCODE ".toList ++ showType t ++ ", ".toList ++ showSeq sq ++ ", [".toList ++ showBytes bs := rfl
  simp [hline]

theorem semicolon_not_mem_showPseudo_encode : ';' ∉ showPseudo (.encode t sq bs) := by
  have htype := semicolon_not_mem_of_wordChars (showType_isWordChar t)
  have hseq := semicolon_not_mem_of_wordChars (showSeq_isWordChar sq)
  rw [showPseudo_encode]
  simp [htype, hseq, semicolon_not_mem_showBytes]

theorem lexFrom_showPseudo_encode :
    lexFrom [] (showPseudo (.encode t sq bs)) =
      .word "ENCODE".toList :: .word (showType t) :: .comma :: .word (showSeq sq) :: .comma :: .openBracket ::
        lexFrom [] (showBytes bs) := by
  have hopen : lexFrom [] ('[' :: showBytes bs) = .openBracket :: lexFrom [] (showBytes bs) := rfl
  rw [showPseudo_encode, lexFrom_word_space (by decide) (by decide),
    lexFrom_word_comma (showType_isWordChar t) (showType_ne_nil t),
    lexFrom_word_comma (showSeq_isWordChar sq) (showSeq_ne_nil sq), hopen]

theorem assemble_showPseudo_encode : assemble (showPseudo (.encode t sq bs)) = some (.pseudo (.encode t sq bs)) := by
  rw [assemble, lex_of_not_mem (semicolon_not_mem_showPseudo_encode t sq bs), lexFrom_showPseudo_encode, parseTokens,
    parseEncode, if_pos rfl, parseType_showType, parseSeq_showSeq, parseBytes_showBytes]

end

theorem assemble_encStart_line (t : PacketType) (sq : BitVec 3) :
    assemble ("ENC.START".toList ++ ' ' :: (showType t ++ ", ".toList ++ showSeq sq)) =
      some (.instr (.encStart t sq)) := by
  have htype := semicolon_not_mem_of_wordChars (showType_isWordChar t)
  have hseq := semicolon_not_mem_of_wordChars (showSeq_isWordChar sq)
  have hsemi : ';' ∉ "ENC.START".toList ++ ' ' :: (showType t ++ ", ".toList ++ showSeq sq) := by simp [htype, hseq]
  rw [assemble, lex_of_not_mem hsemi, lexFrom_word_space (by decide) (by decide),
    lexFrom_word_comma (showType_isWordChar t) (showType_ne_nil t),
    lexFrom_last (showSeq_isWordChar sq) (showSeq_ne_nil sq), parseTokens, parseTwo, if_pos rfl, parseType_showType,
    parseSeq_showSeq]

theorem assemble_showInstr {i : Instr} (hi : isCommand i = true) :
    ∃ line, showInstr i = some line ∧ assemble line = some (.instr i) := by
  cases i with
  | crcFold b =>
    refine ⟨_, rfl, (assemble_byte_line (m := "CRC.FOLD".toList) (by decide) (by decide) b).trans ?_⟩
    rw [parseOne, if_pos rfl, parseByte_showByte, Option.map_some]
  | encStart t sq =>
    have hline : showInstr (.encStart t sq) =
        some ("ENC.START ".toList ++ showType t ++ ", ".toList ++ showSeq sq) := rfl
    refine ⟨_, hline, ?_⟩
    rw [← assemble_encStart_line t sq]
    simp
  | encData b =>
    refine ⟨_, rfl, (assemble_byte_line (m := "ENC.DATA".toList) (by decide) (by decide) b).trans ?_⟩
    rw [parseOne, if_neg (by decide), if_pos rfl, parseByte_showByte, Option.map_some]
  | rxPush bs =>
    refine ⟨_, rfl, (assemble_list_line (m := "RX.PUSH".toList) (by decide) (by decide) bs).trans ?_⟩
    rw [parseList, if_pos rfl, parseBytes_showBytes, Option.map_some]
  | rxExtract c => cases c <;> exact ⟨_, rfl, by decide⟩
  | crcClr | crcRd | encEnd | rxValid | rxClear | status => exact ⟨_, rfl, by decide⟩
  | typeSeqAcknowledge sq | typeSeqDisconnect sq | typeSeqLinkRequest sq | typeSeqData sq => cases hi

theorem assemble_showPseudo (p : Pseudo) : assemble (showPseudo p) = some (.pseudo p) := by
  cases p with
  | checksum bs =>
    refine (assemble_list_line (m := "CHECKSUM".toList) (by decide) (by decide) bs).trans ?_
    rw [parseList, if_neg (by decide), if_pos rfl, parseBytes_showBytes, Option.map_some]
  | encode t sq bs => exact assemble_showPseudo_encode t sq bs
  | deliver bs =>
    refine (assemble_list_line (m := "DELIVER".toList) (by decide) (by decide) bs).trans ?_
    rw [parseList, if_neg (by decide), if_neg (by decide), if_pos rfl, parseBytes_showBytes, Option.map_some]
  | probe | discard => decide

/-- Settles O6: the printed lines by `assemble_showInstr` and `assemble_showPseudo`; the spec's example line as it
stands. -/
theorem assembleShownLine : Obligations.AssembleShownLine :=
  ⟨fun _ hi => assemble_showInstr hi, assemble_showPseudo, by decide, by decide⟩

end Sys2Proof.Machine
end

section
/-! PROOFS. Family other: the first 10 03 pair of a byte list (R117), stuffed bytes (R46), and the shape of a frame
(R45, R85). -/

namespace Sys2Proof.Machine

/-! ## The first pair (R117) -/

theorem findPair_cons_of_ne {b : Byte} (h : b ≠ Config.esc) (l : List Byte) :
    findPair (b :: l) = (findPair l).map (· + 1) := by
  cases l with
  | nil => rfl
  | cons c l => rw [findPair, if_neg fun hpair => h hpair.1]

/-- A 0x10 that no 0x03 follows is no pair's first byte. -/
theorem findPair_cons_of_head_ne (b : Byte) {l : List Byte} (h : l.head? ≠ some Config.etx) :
    findPair (b :: l) = (findPair l).map (· + 1) := by
  cases l with
  | nil => rfl
  | cons c l => rw [findPair, if_neg fun hpair => h (congrArg some hpair.2)]

theorem head?_esc_cons_ne (l : List Byte) : (Config.esc :: l).head? ≠ some Config.etx := by
  rw [List.head?_cons]
  decide

/-- Bytes without a pair, then a pair: that one is the first, for a 0x10 before it is followed by a 0x10. -/
theorem findPair_append_pair {u : List Byte} (hu : findPair u = none) (v : List Byte) :
    findPair (u ++ Config.esc :: Config.etx :: v) = some u.length := by
  induction u with
  | nil => rfl
  | cons b u ih =>
    cases u with
    | nil => rw [List.singleton_append, findPair_cons_of_head_ne b (head?_esc_cons_ne _)]; rfl
    | cons c u =>
      rw [findPair] at hu
      split at hu
      · cases hu
      next hpair =>
        have ih' := ih (Option.map_eq_none_iff.1 hu)
        rw [List.cons_append] at ih'
        rw [List.cons_append, List.cons_append, findPair, if_neg hpair, ih']
        rfl

/-- Where the search finds a pair, and what it has passed over. -/
theorem exists_of_findPair_eq_some {B : List Byte} {p : Nat} (h : findPair B = some p) :
    ∃ u v, B = u ++ Config.esc :: Config.etx :: v ∧ u.length = p ∧ findPair u = none := by
  induction B generalizing p with
  | nil => cases h
  | cons b l ih =>
    cases l with
    | nil => cases h
    | cons c l =>
      rw [findPair] at h
      split at h
      next hpair =>
        obtain ⟨rfl, rfl⟩ := hpair
        cases h
        exact ⟨[], l, rfl, rfl, rfl⟩
      next hpair =>
        obtain ⟨p, hp, rfl⟩ := Option.map_eq_some_iff.1 h
        obtain ⟨u, v, huv, rfl, hu⟩ := ih hp
        refine ⟨b :: u, v, by rw [huv, List.cons_append], rfl, ?_⟩
        cases u with
        | nil => rfl
        | cons d u =>
          obtain ⟨rfl, -⟩ := List.cons.inj huv
          rw [findPair, if_neg hpair, hu, Option.map_none]

/-- A pair found stays the first, whatever bytes come behind. -/
theorem findPair_append_of_eq_some {B : List Byte} {p : Nat} (h : findPair B = some p) (later : List Byte) :
    findPair (B ++ later) = some p := by
  obtain ⟨u, v, rfl, rfl, hu⟩ := exists_of_findPair_eq_some h
  rw [List.append_assoc, List.cons_append, List.cons_append]
  exact findPair_append_pair hu (v ++ later)

theorem findPair_eq_none_of_cons {b : Byte} {l : List Byte} (h : findPair (b :: l) = none) : findPair l = none := by
  cases l with
  | nil => rfl
  | cons c l =>
    rw [findPair] at h
    split at h
    · cases h
    · exact Option.map_eq_none_iff.1 h

theorem hasPair_eq_false_iff {l : List Byte} : hasPair l = false ↔ findPair l = none := by
  rw [hasPair, ← Bool.not_eq_true, Option.not_isSome_iff_eq_none]

/-- The channel in front makes no pair. -/
theorem hasPair_channel_cons (l : List Byte) : hasPair (Config.channel :: l) = hasPair l := by
  rw [hasPair, findPair_cons_of_ne (by decide), Option.isSome_map, hasPair]

/-! ## Stuffed bytes (R46) -/

theorem length_stuff (b : Byte) : (stuff b).length = if b = Config.esc then 2 else 1 := by
  unfold stuff
  split <;> rfl

theorem head?_stuffAll (l : List Byte) : (stuffAll l).head? = l.head? := by
  cases l with
  | nil => rfl
  | cons b l =>
    by_cases hb : b = Config.esc
    · subst hb; rfl
    · rw [stuffAll_cons, stuff_of_ne hb]; rfl

/-- One more byte for each 0x10. -/
theorem length_stuffAll (l : List Byte) : (stuffAll l).length = l.length + l.count Config.esc := by
  induction l with
  | nil => rfl
  | cons b l ih =>
    rw [stuffAll_cons, List.length_append, length_stuff, ih, List.length_cons, List.count_cons]
    simp only [beq_iff_eq]
    split <;> omega

/-- Stuffed bytes without a logical pair hold none, and make none with what comes behind unless that begins with
0x03. -/
theorem findPair_stuffAll_append {l rest : List Byte} (hl : findPair l = none) (hrest : rest.head? ≠ some Config.etx) :
    findPair (stuffAll l ++ rest) = (findPair rest).map (· + (stuffAll l).length) := by
  induction l with
  | nil => simp
  | cons b l ih =>
    have ih := ih (findPair_eq_none_of_cons hl)
    by_cases hb : b = Config.esc
    · subst hb
      have hhead : (stuffAll l ++ rest).head? ≠ some Config.etx := by
        cases l with
        | nil => exact hrest
        | cons c l =>
          rw [findPair] at hl
          have hc : c ≠ Config.etx := by rintro rfl; simp at hl
          rw [List.head?_append, head?_stuffAll]
          simpa using hc
      rw [stuffAll_cons, stuff_esc, List.append_assoc, List.cons_append, List.cons_append, List.nil_append,
        findPair_cons_of_head_ne _ (head?_esc_cons_ne _), findPair_cons_of_head_ne _ hhead, ih, Option.map_map,
        Option.map_map]
      rfl
    · rw [stuffAll_cons, stuff_of_ne hb, List.singleton_append, List.cons_append, findPair_cons_of_ne hb, ih,
        Option.map_map]
      rfl

/-- The pair a logical 10 03 leaves on the wire: the second of the doubled 0x10, and the 0x03. -/
theorem stuffAll_append_pair (u v : List Byte) :
    stuffAll (u ++ Config.esc :: Config.etx :: v) =
      (stuffAll u ++ [Config.esc]) ++ Config.esc :: Config.etx :: stuffAll v := by
  rw [stuffAll_append, List.append_assoc]
  rfl

theorem findPair_stuffAll {l : List Byte} (hl : findPair l = none) : findPair (stuffAll l) = none := by
  have h := findPair_stuffAll_append hl (rest := []) (by simp)
  rw [List.append_nil] at h
  exact h

theorem findPair_stuffAll_esc {l : List Byte} (hl : findPair l = none) : findPair (stuffAll l ++ [Config.esc]) = none :=
  findPair_stuffAll_append hl (head?_esc_cons_ne [])

/-- Stuffing neither makes a pair nor hides one. -/
theorem isSome_findPair_stuffAll (l : List Byte) : (findPair (stuffAll l)).isSome = hasPair l := by
  cases h : findPair l with
  | none => rw [findPair_stuffAll h, hasPair, h]
  | some p =>
    obtain ⟨u, v, rfl, -, hu⟩ := exists_of_findPair_eq_some h
    rw [stuffAll_append_pair, findPair_append_pair (findPair_stuffAll_esc hu), hasPair, h]
    rfl

/-- The copy of R121 undoes stuffing. -/
theorem unstuff_stuffAll_append (l rest : List Byte) : unstuff (stuffAll l ++ rest) = l ++ unstuff rest := by
  induction l with
  | nil => rfl
  | cons b l ih =>
    by_cases hb : b = Config.esc
    · subst hb
      rw [stuffAll_cons, stuff_esc, List.append_assoc, List.cons_append, unstuff_cons, if_pos rfl]
      exact congrArg _ ih
    · rw [stuffAll_cons, stuff_of_ne hb, List.append_assoc, List.singleton_append, unstuff_cons, if_neg hb, ih,
        List.cons_append]

/-- The scan of R119 over stuffed bytes folds each logical byte once. -/
theorem crcScan_stuffAll (l rest : List Byte) (c : Word) :
    crcScan (stuffAll l).length c (stuffAll l ++ rest) = foldAll c l := by
  induction l generalizing c with
  | nil => rw [stuffAll_nil, List.length_nil, crcScan, foldAll_nil]
  | cons b l ih =>
    by_cases hb : b = Config.esc
    · subst hb
      rw [stuffAll_cons, stuff_esc, List.append_assoc, foldAll_cons, ← ih]
      exact if_pos ⟨rfl, rfl⟩
    · rw [stuffAll_cons, stuff_of_ne hb, List.append_assoc, List.singleton_append, List.singleton_append,
        List.length_cons, foldAll_cons]
      cases hx : stuffAll l ++ rest with
      | nil =>
        obtain ⟨hnil, -⟩ := List.append_eq_nil_iff.1 hx
        have ih := ih (fold c b)
        rw [hnil, List.length_nil, crcScan] at ih
        rw [hnil, List.length_nil]
        exact ih
      | cons d x => rw [crcScan_cons_cons, if_neg fun hpair => hb hpair.1, ← hx, ih]

/-- In stuffed bytes a maximal run of 0x10 has even length: a part before it ends where the run begins. -/
theorem stuffAll_run_even {l a b : List Byte} {k : Nat} (h : stuffAll l = a ++ (List.replicate k Config.esc ++ b))
    (ha : a.getLast? ≠ some Config.esc) (hb : b.head? ≠ some Config.esc) : k % 2 = 0 := by
  induction l generalizing a k with
  | nil =>
    have hlen := congrArg List.length h
    simp only [stuffAll_nil, List.length_nil, List.length_append, List.length_replicate] at hlen
    omega
  | cons c l ih =>
    rw [stuffAll_cons] at h
    by_cases hc : c = Config.esc
    · subst hc
      rw [stuff_esc] at h
      match a, k with
      | [], 0 => rfl
      | [], 1 =>
        have htail : Config.esc :: stuffAll l = b := (List.cons.inj h).2
        exact absurd (congrArg List.head? htail.symm) hb
      | [], k + 2 =>
        have hk := ih (a := []) (List.cons.inj (List.cons.inj h).2).2 (by simp)
        omega
      | [x], k => simp [← (List.cons.inj h).1] at ha
      | x :: y :: a, k =>
        refine ih (a := a) (List.cons.inj (List.cons.inj h).2).2 fun hlast => ha ?_
        simp [List.getLast?_cons, hlast]
    · rw [stuff_of_ne hc] at h
      match a, k with
      | [], 0 => rfl
      | [], k + 1 => exact absurd (List.cons.inj h).1 hc
      | x :: a, k =>
        refine ih (a := a) (List.cons.inj h).2 fun hlast => ha ?_
        simp [List.getLast?_cons, hlast]

/-- Settles O25, by `stuffAll_run_even`. -/
theorem stuffedRunsAreEven : Obligations.StuffedRunsAreEven := by
  intro l a b k h ha hb
  rw [List.append_assoc] at h
  exact stuffAll_run_even h ha hb

/-! ## The frame (R45, R85) -/

section
variable (t : PacketType) (sq : BitVec 3) (payload : List Byte)

/-- What stands before the postamble: preamble, channel, stuffed typeSeq, stuffed payload. -/
def frameBody : List Byte :=
  Config.preamble ++ Config.channel :: stuff (typeSeqByte t sq) ++ stuffAll payload

theorem frameBody_eq : frameBody t sq payload = Config.preamble ++ stuffAll (logicalBytes t sq payload) := by
  simp [frameBody, logicalBytes, stuff_channel]

theorem encodeFrame_eq : encodeFrame t sq payload =
    frameBody t sq payload ++ frameTail (checksum (logicalBytes t sq payload)) := by
  rw [frameBody_eq, encodeFrame]

theorem length_frameTail (c : Word) : (frameTail c).length = 4 := rfl

theorem length_encodeFrame : (encodeFrame t sq payload).length = (frameBody t sq payload).length + 4 := by
  rw [encodeFrame_eq, List.length_append, length_frameTail]

theorem length_frameBody : (frameBody t sq payload).length =
    5 + payload.length + (typeSeqByte t sq :: payload).count Config.esc := by
  have hlen := length_stuffAll (typeSeqByte t sq :: payload)
  rw [stuffAll_cons, List.length_append, List.length_cons] at hlen
  simp [frameBody, Config.preamble]
  omega

end

/-- Settles O24: the frame is its body and its tail of four bytes, which hold the checksum big-endian. -/
theorem frameLengthHeadAndTail : Obligations.FrameLengthHeadAndTail := by
  intro t sq payload
  refine ⟨?_, ?_, _, _, ?_, bigEndian_highByte_lowByte _⟩
  · rw [length_encodeFrame, length_frameBody]
    simp only [Config.esc]
    omega
  · rw [encodeFrame_eq]; rfl
  · rw [length_encodeFrame, Nat.add_sub_cancel, encodeFrame_eq, List.drop_left]
    rfl


theorem findPair_preamble_append (l : List Byte) : findPair (Config.preamble ++ l) = (findPair l).map (· + 3) := by
  have hescape : findPair (Config.esc :: 0x02 :: l) = (findPair (0x02 :: l)).map (· + 1) :=
    findPair_cons_of_head_ne _ (by rw [List.head?_cons]; decide)
  rw [Config.preamble, List.cons_append, List.cons_append, List.cons_append, List.nil_append,
    findPair_cons_of_ne (by decide)]
  exact (congrArg _ hescape).trans (by rw [findPair_cons_of_ne (by decide), Option.map_map, Option.map_map]; rfl)

/-- Where the logical bytes hold no pair, the bytes before the postamble hold none. -/
theorem findPair_frameBody {t : PacketType} {sq : BitVec 3} {payload : List Byte}
    (h : hasPair (typeSeqByte t sq :: payload) = false) : findPair (frameBody t sq payload) = none := by
  rw [← hasPair_channel_cons, hasPair_eq_false_iff] at h
  rw [frameBody_eq, findPair_preamble_append, logicalBytes, findPair_stuffAll h, Option.map_none]

theorem findPair_encodeFrame {t : PacketType} {sq : BitVec 3} {payload : List Byte}
    (h : hasPair (typeSeqByte t sq :: payload) = false) :
    findPair (encodeFrame t sq payload) = some (frameBody t sq payload).length := by
  rw [encodeFrame_eq]
  exact findPair_append_pair (findPair_frameBody h) _

/-- What the extraction takes for the whole of a frame whose logical bytes behind the channel are `u`, then 10 03. -/
def ambiguousBody (u : List Byte) : List Byte := Config.preamble ++ Config.channel :: (stuffAll u ++ [Config.esc])

theorem length_ambiguousBody (u : List Byte) : (ambiguousBody u).length = (stuffAll u).length + 5 := by
  simp [ambiguousBody, Config.preamble]

/-- A frame with a logical pair, cut at the pair that it leaves on the wire. -/
theorem encodeFrame_of_pair {t : PacketType} {sq : BitVec 3} {payload u v : List Byte}
    (h : typeSeqByte t sq :: payload = u ++ Config.esc :: Config.etx :: v) :
    encodeFrame t sq payload = ambiguousBody u ++
      Config.esc :: Config.etx :: (stuffAll v ++ frameTail (checksum (logicalBytes t sq payload))) := by
  rw [encodeFrame, logicalBytes, h, stuffAll_cons, stuff_channel, stuffAll_append_pair]
  simp [ambiguousBody]

theorem findPair_encodeFrame_of_pair {t : PacketType} {sq : BitVec 3} {payload u v : List Byte}
    (h : typeSeqByte t sq :: payload = u ++ Config.esc :: Config.etx :: v) (hu : findPair u = none) :
    findPair (encodeFrame t sq payload) = some (ambiguousBody u).length := by
  rw [encodeFrame_of_pair h]
  refine findPair_append_pair ?_ _
  rw [ambiguousBody, findPair_preamble_append, findPair_cons_of_ne (by decide), findPair_stuffAll_esc hu]
  rfl

theorem length_encodeFrame_of_pair {t : PacketType} {sq : BitVec 3} {payload u v : List Byte}
    (h : typeSeqByte t sq :: payload = u ++ Config.esc :: Config.etx :: v) :
    (encodeFrame t sq payload).length = (ambiguousBody u).length + (stuffAll v).length + 6 := by
  rw [encodeFrame_of_pair h]
  simp only [List.length_append, List.length_cons, length_frameTail]
  omega

theorem exists_of_hasPair {l : List Byte} (h : hasPair l = true) :
    ∃ u v, l = u ++ Config.esc :: Config.etx :: v ∧ findPair u = none := by
  obtain ⟨p, hp⟩ := Option.isSome_iff_exists.1 h
  obtain ⟨u, v, huv, -, hu⟩ := exists_of_findPair_eq_some hp
  exact ⟨u, v, huv, hu⟩

/-- Settles O26: the stuffed body by `isSome_findPair_stuffAll`, the frame by its cut at the postamble or at the earlier
pair. -/
theorem firstPairOfFrame : Obligations.FirstPairOfFrame := by
  intro t sq payload
  refine ⟨?_, fun h => ?_, fun h => ?_⟩
  · rw [isSome_findPair_stuffAll, logicalBytes, hasPair_channel_cons]
  · rw [findPair_encodeFrame h, length_encodeFrame, Nat.add_sub_cancel]
  · obtain ⟨u, v, huv, hu⟩ := exists_of_hasPair h
    have hlen := length_encodeFrame_of_pair huv
    have hbody := length_ambiguousBody u
    exact ⟨_, findPair_encodeFrame_of_pair huv hu, by omega, by omega⟩

end Sys2Proof.Machine
end

section
/-! PROOFS. Family other: what the extraction makes of a frame (R116 to R126), how long a payload can be (R121), and
what bytes behind a finished extraction change (R110). -/

namespace Sys2Proof.Machine

/-! ## The bytes of a list in parts -/

theorem byteAt_append_right (l k : List Byte) (i : Nat) : byteAt (l ++ k) (l.length + i) = byteAt k i := by
  rw [byteAt, List.getD_append_right _ _ _ _ (Nat.le_add_right _ _), Nat.add_sub_cancel_left, byteAt]

theorem byteAt_append_left {l : List Byte} {i : Nat} (h : i < l.length) (k : List Byte) :
    byteAt (l ++ k) i = byteAt l i :=
  List.getD_append _ _ _ _ h

theorem sublist_append_left {l : List Byte} {p : Nat} (h : p ≤ l.length) (k : List Byte) (a : Nat) :
    sublist (l ++ k) a p = sublist l a p := by
  rw [sublist, List.take_append_of_le_length h, sublist]

theorem sublist_middle (a b c : List Byte) : sublist (a ++ b ++ c) a.length (a ++ b).length = b := by
  rw [sublist, List.take_left, List.drop_left]

theorem byteAt_stuff (b : Byte) (l : List Byte) : byteAt (stuff b ++ l) 0 = b := by
  unfold stuff
  split <;> rfl

/-! ## Where an extraction gets to its last steps (R116 to R118) -/

theorem extract_eq_extractAt {B : List Byte} {p : Nat} (hpre : B.take 3 = Config.preamble) (hp : findPair B = some p)
    (h5 : 5 ≤ p) (h4 : p + 4 ≤ B.length) : extract B = extractAt B p := by
  have hmin : ¬B.length < Config.minFrame := by
    simp only [Config.minFrame]
    omega
  simp only [extract, if_neg hmin, hpre, hp, ne_eq, not_true_eq_false, if_false]
  rw [if_neg (by omega), if_neg (by omega)]

theorem extractAt_eq_corrupt_or_extractMessage (B : List Byte) (p : Nat) :
    (∃ c e, extractAt B p = .corrupt c e) ∨ extractAt B p = extractMessage B p := by
  rw [extractAt]
  split
  · exact .inl ⟨_, _, rfl⟩
  · exact .inr rfl

/-- Of a frame's front, the Message has type and sequence; its payload is the copy of what stands between the typeSeq
and the pair. -/
theorem extractMessage_frame (t : PacketType) (sq : BitVec 3) (body rest : List Byte) :
    extractMessage (Config.preamble ++ Config.channel :: stuff (typeSeqByte t sq) ++ body ++ rest)
        (Config.preamble ++ Config.channel :: stuff (typeSeqByte t sq) ++ body).length =
      .okMessage { type := t, seq := sq, payload := unstuff body } := by
  have hts : byteAt (Config.preamble ++ Config.channel :: stuff (typeSeqByte t sq) ++ body ++ rest) 4 =
      typeSeqByte t sq := by
    rw [List.append_assoc, List.append_assoc]
    exact byteAt_stuff _ _
  have hstart : (if typeSeqByte t sq = Config.esc then 6 else 5) =
      (Config.preamble ++ Config.channel :: stuff (typeSeqByte t sq)).length := by
    rw [List.length_append, List.length_cons, length_stuff]
    split <;> rfl
  simp only [extractMessage, hts, typeSeqType_typeSeqByte, typeSeqSeq_typeSeqByte, hstart, sublist_middle]

/-! ## A frame (R125, R126) -/

theorem take_three_encodeFrame (t : PacketType) (sq : BitVec 3) (payload : List Byte) :
    (encodeFrame t sq payload).take 3 = Config.preamble := rfl

theorem length_frameBody_ge (t : PacketType) (sq : BitVec 3) (payload : List Byte) :
    5 ≤ (frameBody t sq payload).length := by
  rw [length_frameBody]
  omega

/-- At its postamble a frame's checksum is right. -/
theorem extractAt_encodeFrame (t : PacketType) (sq : BitVec 3) (payload : List Byte) :
    extractAt (encodeFrame t sq payload) (frameBody t sq payload).length =
      extractMessage (encodeFrame t sq payload) (frameBody t sq payload).length := by
  have hcomputed : crcScan ((frameBody t sq payload).length - 3) Config.crcInit ((encodeFrame t sq payload).drop 3) =
      checksum (logicalBytes t sq payload) := by
    have hdrop : (encodeFrame t sq payload).drop 3 = stuffAll (logicalBytes t sq payload) ++
      frameTail (checksum (logicalBytes t sq payload)) := rfl
    have hlen : (frameBody t sq payload).length - 3 = (stuffAll (logicalBytes t sq payload)).length := by
      rw [frameBody_eq]
      rfl
    rw [hdrop, hlen, crcScan_stuffAll, checksum]
  have hexpected : bigEndian (byteAt (encodeFrame t sq payload) ((frameBody t sq payload).length + 2))
      (byteAt (encodeFrame t sq payload) ((frameBody t sq payload).length + 3)) =
      checksum (logicalBytes t sq payload) := by
    rw [encodeFrame_eq, byteAt_append_right, byteAt_append_right]
    exact bigEndian_highByte_lowByte _
  simp only [extractAt, hcomputed, hexpected, ne_eq, not_true_eq_false, if_false]

theorem unstuff_stuffAll (l : List Byte) : unstuff (stuffAll l) = l := by
  have h := unstuff_stuffAll_append l []
  rwa [List.append_nil, unstuff, List.append_nil] at h

theorem extract_encodeFrame {t : PacketType} {sq : BitVec 3} {payload : List Byte}
    (h : hasPair (typeSeqByte t sq :: payload) = false) :
    extract (encodeFrame t sq payload) = .okMessage { type := t, seq := sq, payload := payload } := by
  have hmessage := extractMessage_frame t sq (stuffAll payload) (frameTail (checksum (logicalBytes t sq payload)))
  rw [unstuff_stuffAll] at hmessage
  rw [extract_eq_extractAt (take_three_encodeFrame t sq payload) (findPair_encodeFrame h)
    (length_frameBody_ge t sq payload) (length_encodeFrame t sq payload).ge, extractAt_encodeFrame, encodeFrame_eq]
  exact hmessage

/-- Settles O40: the first pair is the postamble, where the checksum is right and the copy gives the payload. -/
theorem extractOfEncode : Obligations.ExtractOfEncode := fun _ _ _ h => extract_encodeFrame h

/-- Cut at the pair that a logical 10 03 leaves, the copy gives an initial part of the payload: nothing if the typeSeq
is that 0x10, else all up to and with it. -/
theorem extractMessage_of_pair {t : PacketType} {sq : BitVec 3} {payload u v : List Byte}
    (h : typeSeqByte t sq :: payload = u ++ Config.esc :: Config.etx :: v) (rest : List Byte) :
    ∃ k < payload.length, extractMessage (ambiguousBody u ++ rest) (ambiguousBody u).length =
      .okMessage { type := t, seq := sq, payload := payload.take k } := by
  cases u with
  | nil =>
    obtain ⟨hts, rfl⟩ := List.cons.inj h
    refine ⟨0, Nat.succ_pos _, ?_⟩
    have htype := typeSeqType_typeSeqByte t sq
    have hseq := typeSeqSeq_typeSeqByte t sq
    rw [hts] at htype hseq
    have hbyte : byteAt (ambiguousBody [] ++ rest) 4 = Config.esc := rfl
    have hempty : sublist (ambiguousBody [] ++ rest) 6 (ambiguousBody []).length = [] := sublist_of_le _ (by decide)
    simp only [extractMessage, hbyte, htype, hseq, if_true, hempty, unstuff, List.take_zero]
  | cons b w =>
    rw [List.cons_append] at h
    obtain ⟨rfl, rfl⟩ := List.cons.inj h
    refine ⟨w.length + 1, by simp, ?_⟩
    have hbody : ambiguousBody (typeSeqByte t sq :: w) =
        Config.preamble ++ Config.channel :: stuff (typeSeqByte t sq) ++ (stuffAll w ++ [Config.esc]) := by
      simp [ambiguousBody]
    have htake : (w ++ Config.esc :: Config.etx :: v).take (w.length + 1) = w ++ [Config.esc] := by
      simp [List.take_append]
    rw [hbody, extractMessage_frame, unstuff_stuffAll_append, htake]
    rfl

/-- Settles O41: the extraction takes the earlier pair for the postamble; there the checksum differs, or the payload is
cut short. -/
theorem ambiguousFrameMisreads : Obligations.AmbiguousFrameMisreads := by
  intro t sq payload h
  obtain ⟨u, v, huv, hu⟩ := exists_of_hasPair h
  have hlen := length_encodeFrame_of_pair huv
  have hbody := length_ambiguousBody u
  rw [extract_eq_extractAt (take_three_encodeFrame t sq payload) (findPair_encodeFrame_of_pair huv hu) (by omega)
    (by omega)]
  refine (extractAt_eq_corrupt_or_extractMessage _ _).imp_right fun hat => ?_
  rw [hat, encodeFrame_of_pair huv]
  exact extractMessage_of_pair huv _

/-! ## How long a payload can be (R121) -/

theorem length_unstuff_le (l : List Byte) : (unstuff l).length ≤ l.length := by
  induction l using unstuff.induct with
  | case1 => exact Nat.le_refl _
  | case2 b => exact Nat.le_refl _
  | case3 d l ih =>
    rw [unstuff, if_pos rfl, List.length_cons, List.length_cons, List.length_cons]
    omega
  | case4 b d l hb ih =>
    rw [unstuff, if_neg hb, List.length_cons, List.length_cons]
    omega

theorem length_sublist_le (l : List Byte) (a b : Nat) : (sublist l a b).length ≤ b - a := by
  rw [sublist, List.length_drop, List.length_take]
  omega

theorem length_payload_le {B : List Byte} {m : Message} (h : extract B = .okMessage m) :
    m.payload.length + 9 ≤ B.length := by
  obtain hno | ⟨p, -, -, -, h4, h5, hat⟩ := extract_cases B
  · simp [hno] at h
  · rw [hat] at h
    obtain ⟨e, -, he⟩ | ⟨-, he⟩ | ⟨t, -, he⟩ := extractAt_cases B p
    · simp [he] at h
    · simp [he] at h
    · rw [he] at h
      cases h
      have hcopy := length_unstuff_le (sublist B (if byteAt B 4 = Config.esc then 6 else 5) p)
      have hregion := length_sublist_le B (if byteAt B 4 = Config.esc then 6 else 5) p
      have hstart : 5 ≤ (if byteAt B 4 = Config.esc then 6 else 5) := by split <;> omega
      simp only
      omega

/-- Settles O38: the region copied ends four bytes before the buffer does, and starts at offset 5 or 6. -/
theorem extractedPayloadIsBounded : Obligations.ExtractedPayloadIsBounded := by
  intro B m h
  have hlen := length_payload_le h
  refine ⟨hlen, fun hB => ⟨by omega, ?_⟩⟩
  rw [lenField, BitVec.toNat_ofNat]
  exact Nat.mod_eq_of_lt (by omega)

/-! ## Bytes that come later (R110) -/

/-- The scan looks one byte ahead and no further. -/
theorem crcScan_append (m : Nat) (c : Word) (l : List Byte) (h : m = 0 ∨ m < l.length)
    (later : List Byte) : crcScan m c (l ++ later) = crcScan m c l := by
  induction m, c, l using crcScan.induct with
  | case1 c l => rw [crcScan, crcScan]
  | case2 m c => simp at h
  | case3 m c b => simp at h
  | case4 m c b d l hpair ih =>
    simp only [List.length_cons] at h
    rw [List.cons_append, List.cons_append, crcScan_cons_cons, crcScan_cons_cons, if_pos hpair, if_pos hpair,
      ih (by omega)]
  | case5 m c b d l hpair ih =>
    simp only [List.length_cons] at h
    rw [List.cons_append, List.cons_append, crcScan_cons_cons, crcScan_cons_cons, if_neg hpair, if_neg hpair,
      ← List.cons_append, ih (by simp only [List.length_cons]; omega)]

theorem extractAt_append {B : List Byte} {p : Nat} (h5 : 5 ≤ p) (h4 : p + 4 ≤ B.length) (later : List Byte) :
    extractAt (B ++ later) p = extractAt B p := by
  have hscan : crcScan (p - 3) Config.crcInit ((B ++ later).drop 3) = crcScan (p - 3) Config.crcInit (B.drop 3) := by
    rw [List.drop_append_of_le_length (by omega)]
    exact crcScan_append _ _ _ (.inr (by rw [List.length_drop]; omega)) later
  have hsub (a : Nat) := sublist_append_left (l := B) (p := p) (by omega) later a
  simp only [extractAt, extractMessage, hscan, hsub, byteAt_append_left (show p + 2 < B.length by omega),
    byteAt_append_left (show p + 3 < B.length by omega), byteAt_append_left (show 4 < B.length by omega)]

theorem take_three_append {B : List Byte} (h : 3 ≤ B.length) (later : List Byte) :
    (B ++ later).take 3 = B.take 3 := List.take_append_of_le_length h

/-- A finished extraction has all it reads inside the buffer. -/
theorem extract_append {B : List Byte} (h : extract B ≠ .noFrame) (later : List Byte) :
    extract (B ++ later) = extract B := by
  obtain hno | ⟨p, -, hpre, hp, h4, h5, hat⟩ := extract_cases B
  · exact absurd hno h
  · rw [hat, ← extractAt_append h5 h4 later]
    refine extract_eq_extractAt ?_ (findPair_append_of_eq_some hp later) h5 ?_
    · rw [take_three_append (by omega), hpre]
    · rw [List.length_append]
      omega

theorem extract_noFrame_of_preamble {B : List Byte} (h : B.take 3 ≠ Config.preamble) : extract B = .noFrame := by
  obtain hno | ⟨p, -, hpre, -⟩ := extract_cases B
  · exact hno
  · exact absurd hpre h

/-- Settles O39: `extract_append`, and a preamble that is wrong stays so. -/
theorem laterBytesNeverHelp : Obligations.LaterBytesNeverHelp := by
  refine ⟨fun B later h => extract_append h later, fun B later hlen h => extract_noFrame_of_preamble ?_⟩
  rw [take_three_append hlen]
  exact h

end Sys2Proof.Machine
end

section
/-! PROOFS. Family other: what each command leaves unchanged, keeps and answers (R79, R89, R92, R101 to R106, R165 to
R170, R26). -/

namespace Sys2Proof.Machine

/-! ## The two sides of the block -/

/-- The registers of the Frame Encoder and the bytes it has emitted. -/
def Block.txSide (b : Block) : EncPhase × Word × List Byte := (b.encPhase, b.txCrc, b.txOut)

/-- The receive buffer, its length and its flag. -/
def Block.rxSide (b : Block) : BitVec 10 × Bool × Memory := (b.rxLen, b.rxOvr, b.rxBuf)

theorem txSide_eq_iff {b c : Block} :
    b.txSide = c.txSide ↔ b.encPhase = c.encPhase ∧ b.txCrc = c.txCrc ∧ b.txOut = c.txOut := by
  simp [Block.txSide]

theorem rxSide_eq_iff {b c : Block} :
    b.rxSide = c.rxSide ↔ b.rxLen = c.rxLen ∧ b.rxOvr = c.rxOvr ∧ b.rxBuf = c.rxBuf := by
  simp [Block.rxSide]

section
variable (b : Block) (t : PacketType) (sq : BitVec 3) (x : Byte)

theorem encStartEffect_rxSide : (encStartEffect t sq b).1.rxSide = b.rxSide := by simp [Block.rxSide]

theorem encDataEffect_rxSide : (encDataEffect x b).1.rxSide = b.rxSide := by simp [Block.rxSide]

theorem encEndEffect_rxSide : (encEndEffect b).1.rxSide = b.rxSide := by simp [Block.rxSide]

@[simp] theorem encStartEffect_crcAcc : (encStartEffect t sq b).1.crcAcc = b.crcAcc := by
  cases h : b.encPhase <;> simp [encStartEffect, h]

@[simp] theorem encDataEffect_crcAcc : (encDataEffect x b).1.crcAcc = b.crcAcc := by
  cases h : b.encPhase <;> simp [encDataEffect, h]

@[simp] theorem encEndEffect_crcAcc : (encEndEffect b).1.crcAcc = b.crcAcc := by
  cases h : b.encPhase <;> simp [encEndEffect, h]

theorem rxPushEffect_txSide (bytes : List Byte) : (rxPushEffect bytes b).1.txSide = b.txSide := by simp [Block.txSide]

theorem consumeOn_txSide (c : Bool) (r : Response) : (consumeOn c r b).txSide = b.txSide := by simp [Block.txSide]

end

section
variable {i : Instr} {b : Block} {e : Block × Response} (h : commandEffect i b = some e)
include h

/-- Only the ENC.* commands touch the encoder. -/
theorem commandEffect_txSide (hi : isEnc i = false) : e.1.txSide = b.txSide := by
  cases i with
  | encStart t sq | encData x | encEnd => cases hi
  | rxPush bytes => cases h; exact rxPushEffect_txSide b bytes
  | rxExtract c =>
    obtain ⟨B, -, rfl⟩ := Option.map_eq_some_iff.1 h
    exact consumeOn_txSide b c (extract B)
  | rxValid =>
    obtain ⟨B, -, rfl⟩ := Option.map_eq_some_iff.1 h
    rfl
  | typeSeqAcknowledge sq | typeSeqDisconnect sq | typeSeqLinkRequest sq | typeSeqData sq => cases h
  | crcClr | crcFold x | crcRd | rxClear | status => cases h; rfl

/-- Only RX.PUSH, RX.EXTRACT 1 and RX.CLEAR touch the receive buffer. -/
theorem commandEffect_rxSide (hpush : ∀ bytes, i ≠ .rxPush bytes) (hextract : i ≠ .rxExtract true)
    (hclear : i ≠ .rxClear) : e.1.rxSide = b.rxSide := by
  cases i with
  | rxPush bytes => exact absurd rfl (hpush bytes)
  | rxClear => exact absurd rfl hclear
  | rxExtract c =>
    cases c with
    | true => exact absurd rfl hextract
    | false =>
      obtain ⟨B, -, rfl⟩ := Option.map_eq_some_iff.1 h
      rfl
  | rxValid =>
    obtain ⟨B, -, rfl⟩ := Option.map_eq_some_iff.1 h
    rfl
  | encStart t sq => cases h; exact encStartEffect_rxSide b t sq
  | encData x => cases h; exact encDataEffect_rxSide b x
  | encEnd => cases h; exact encEndEffect_rxSide b
  | typeSeqAcknowledge sq | typeSeqDisconnect sq | typeSeqLinkRequest sq | typeSeqData sq => cases h
  | crcClr | crcFold x | crcRd | status => cases h; rfl

/-- Only CRC.CLR and CRC.FOLD touch the accumulator. -/
theorem commandEffect_crcAcc (hclr : i ≠ .crcClr) (hfold : ∀ x, i ≠ .crcFold x) : e.1.crcAcc = b.crcAcc := by
  cases i with
  | crcClr => exact absurd rfl hclr
  | crcFold x => exact absurd rfl (hfold x)
  | encStart t sq => cases h; exact encStartEffect_crcAcc b t sq
  | encData x => cases h; exact encDataEffect_crcAcc b x
  | encEnd => cases h; exact encEndEffect_crcAcc b
  | rxPush bytes => cases h; exact rxPushEffect_crcAcc bytes b
  | rxExtract c =>
    obtain ⟨B, -, rfl⟩ := Option.map_eq_some_iff.1 h
    exact consumeOn_crcAcc c (extract B) b
  | rxValid =>
    obtain ⟨B, -, rfl⟩ := Option.map_eq_some_iff.1 h
    rfl
  | typeSeqAcknowledge sq | typeSeqDisconnect sq | typeSeqLinkRequest sq | typeSeqData sq => cases h
  | crcRd | rxClear | status => cases h; rfl

/-- Every command keeps the receive invariant (R26). -/
theorem commandEffect_rxInv (hinv : RxInv b) : RxInv e.1 := by
  cases i with
  | rxPush bytes => cases h; exact hinv.push bytes
  | rxClear => cases h; exact .clearRx b
  | rxExtract c =>
    obtain ⟨B, -, rfl⟩ := Option.map_eq_some_iff.1 h
    rw [consumeOn]
    split
    · exact .clearRx b
    · exact hinv
  | _ =>
    obtain ⟨hlen, -, hbuf⟩ := rxSide_eq_iff.1 (commandEffect_rxSide h (by simp) (by simp) (by simp))
    exact hinv.congr hlen hbuf

end

/-! ## The frame of an instruction -/

section
variable {i : Instr} {s t : State} (h : exec i s = .next t)
include h

theorem exec_block_cases : t.block = s.block ∨ ∃ e, commandEffect i s.block = some e ∧ t.block = e.1 := by
  obtain ⟨-, e, he, rfl⟩ | ⟨ty, sq, -, rfl⟩ := exec_next_cases h
  · exact .inr ⟨e, he, rfl⟩
  · exact .inl rfl

/-- An instruction writes no port but `resp` and the codec's, and nothing of the environment. -/
theorem exec_frame : t.env = s.env ∧ t.ports.inputs = s.ports.inputs ∧ t.ports.rxIn = s.ports.rxIn ∧
    t.ports.txTaken = s.ports.txTaken ∧ t.ports.host = s.ports.host := by
  obtain ⟨-, e, -, rfl⟩ | ⟨ty, sq, -, rfl⟩ := exec_next_cases h <;> exact ⟨rfl, rfl, rfl, rfl, rfl⟩

theorem exec_txSide (hi : isEnc i = false) : t.block.txSide = s.block.txSide := by
  obtain hb | ⟨e, he, hb⟩ := exec_block_cases h <;> rw [hb]
  exact commandEffect_txSide he hi

theorem exec_rxSide (hpush : ∀ bytes, i ≠ .rxPush bytes) (hextract : i ≠ .rxExtract true) (hclear : i ≠ .rxClear) :
    t.block.rxSide = s.block.rxSide := by
  obtain hb | ⟨e, he, hb⟩ := exec_block_cases h <;> rw [hb]
  exact commandEffect_rxSide he hpush hextract hclear

theorem exec_crcAcc (hclr : i ≠ .crcClr) (hfold : ∀ x, i ≠ .crcFold x) : t.block.crcAcc = s.block.crcAcc := by
  obtain hb | ⟨e, he, hb⟩ := exec_block_cases h <;> rw [hb]
  exact commandEffect_crcAcc he hclr hfold

theorem exec_rxInv (hinv : RxInv s.block) : RxInv t.block := by
  obtain hb | ⟨e, he, hb⟩ := exec_block_cases h <;> rw [hb]
  · exact hinv
  · exact commandEffect_rxInv he hinv

end

/-- Settles O46: `exec_frame`, and the sides of the block that the instruction does not touch. -/
theorem nonStoringCommandsFrame : Obligations.NonStoringCommandsFrame := by
  intro i s t h hpush hextract hclear
  obtain ⟨henv, hinputs, hrxIn, htaken, hhost⟩ := exec_frame h
  obtain ⟨hlen, hovr, hbuf⟩ := rxSide_eq_iff.1 (exec_rxSide h hpush hextract hclear)
  refine ⟨fun a => by rw [hbuf], hlen, hovr, henv, hinputs, hrxIn, htaken, hhost, fun hi => ?_, fun hi => ?_⟩
  · obtain ⟨hphase, hcrc, hout⟩ := txSide_eq_iff.1 (exec_txSide h hi)
    exact ⟨hcrc, hphase, hout⟩
  · exact exec_crcAcc h hi.1 hi.2

/-- A push writes at no offset outside its own bytes. -/
theorem rxPushEffect_read (bytes : List Byte) (b : Block) {a : Nat}
    (ha : ¬(b.rxLen.toNat ≤ a ∧ a < b.rxLen.toNat + bytes.length)) :
    (rxPushEffect bytes b).1.rxBuf.read a = b.rxBuf.read a := by
  by_cases hov : Config.maxFrame < b.rxLen.toNat + bytes.length
  · rw [rxPushEffect_overrun hov]
  · rw [rxPushEffect_accepted (by omega)]
    exact (Memory.read_writeBytes _ _ _ _).trans (if_neg ha)

/-- Settles O47: `exec_frame` and the encoder's side; the push by `rxPushEffect_read`. -/
theorem bufferCommandsFrame : Obligations.BufferCommandsFrame := by
  intro i s t h hi
  obtain ⟨henv, hinputs, hrxIn, htaken, hhost⟩ := exec_frame h
  have hacc : t.block.crcAcc = s.block.crcAcc := by
    obtain ⟨bytes, rfl⟩ | rfl | rfl := hi <;> exact exec_crcAcc h (by simp) (by simp)
  have htx : t.block.txSide = s.block.txSide := by
    obtain ⟨bytes, rfl⟩ | rfl | rfl := hi <;> exact exec_txSide h rfl
  obtain ⟨hphase, hcrc, hout⟩ := txSide_eq_iff.1 htx
  refine ⟨hacc, hcrc, hphase, hout, henv, hinputs, hrxIn, htaken, hhost, ?_⟩
  rintro bytes rfl a ha
  rw [exec_rxPush] at h
  cases h
  exact rxPushEffect_read bytes s.block ha

/-! ## Responses (R62, R165 to R170) -/

/-- The statuses of R167, by command. -/
def possibleStatuses (i : Instr) : List Status :=
  match i with
  | .encStart _ _ | .encData _ | .encEnd => [.ok, .badCmd]
  | .rxPush _ => [.ok, .overrun]
  | .rxExtract _ => [.ok, .noFrame, .corrupt, .badType]
  | _ => [.ok]

/-- A response that is not OK leaves the block, but for OVERRUN's flag (R170). -/
def FailsCleanly (b : Block) (e : Block × Response) : Prop :=
  e.2.status ≠ .ok → e.1 = if e.2.status = .overrun then { b with rxOvr := true } else b

theorem extract_status_mem (B : List Byte) :
    (extract B).status ∈ [Status.ok, Status.noFrame, Status.corrupt, Status.badType] := by
  obtain h | ⟨c, e, h⟩ | ⟨b, h⟩ | ⟨m, h⟩ := extract_results B <;> simp [h, Response.status]

section
variable (b : Block) (t : PacketType) (sq : BitVec 3) (x : Byte)

theorem encStartEffect_answer :
    (encStartEffect t sq b).2.status ∈ [Status.ok, Status.badCmd] ∧ FailsCleanly b (encStartEffect t sq b) := by
  cases h : b.encPhase with
  | idle => simp [FailsCleanly, encStartEffect_idle h, Response.status]
  | body => simp [FailsCleanly, encStartEffect_body h, Response.status]

theorem encDataEffect_answer :
    (encDataEffect x b).2.status ∈ [Status.ok, Status.badCmd] ∧ FailsCleanly b (encDataEffect x b) := by
  cases h : b.encPhase with
  | idle => simp [FailsCleanly, encDataEffect_idle h, Response.status]
  | body => simp [FailsCleanly, encDataEffect_body h, Response.status]

theorem encEndEffect_answer :
    (encEndEffect b).2.status ∈ [Status.ok, Status.badCmd] ∧ FailsCleanly b (encEndEffect b) := by
  cases h : b.encPhase with
  | idle => simp [FailsCleanly, encEndEffect_idle h, Response.status]
  | body => simp [FailsCleanly, encEndEffect_body h, Response.status]

theorem rxPushEffect_answer (bytes : List Byte) :
    (rxPushEffect bytes b).2.status ∈ [Status.ok, Status.overrun] ∧ FailsCleanly b (rxPushEffect bytes b) := by
  by_cases hov : Config.maxFrame < b.rxLen.toNat + bytes.length
  · simp [FailsCleanly, rxPushEffect_overrun hov, Response.status]
  · simp [FailsCleanly, rxPushEffect_accepted (show b.rxLen.toNat + bytes.length ≤ Config.maxFrame by omega),
      Response.status]

theorem rxExtract_answer (c : Bool) (B : List Byte) : FailsCleanly b (consumeOn c (extract B) b, extract B) := by
  intro hfail
  have hkeep : ¬(c = true ∧ ∃ m, extract B = .okMessage m) := fun hc => hfail (extract_status_ok.2 hc.2)
  have hstatus := extract_status_mem B
  have hnot : (extract B).status ≠ .overrun := fun heq => by simp [heq] at hstatus
  rw [consumeOn_extract_eq_self hkeep, if_neg hnot]

end

/-- What a command answers, and that it fails cleanly. -/
theorem commandEffect_answer {i : Instr} {b : Block} {e : Block × Response} (h : commandEffect i b = some e) :
    e.2.status ∈ possibleStatuses i ∧ FailsCleanly b e := by
  have hok {c : Block} {r : Response} (hr : r.status = .ok) : FailsCleanly b (c, r) := fun hfail => absurd hr hfail
  cases i with
  | encStart t sq => cases h; exact encStartEffect_answer b t sq
  | encData x => cases h; exact encDataEffect_answer b x
  | encEnd => cases h; exact encEndEffect_answer b
  | rxPush bytes => cases h; exact rxPushEffect_answer b bytes
  | rxExtract c =>
    obtain ⟨B, -, rfl⟩ := Option.map_eq_some_iff.1 h
    exact ⟨extract_status_mem B, rxExtract_answer b c B⟩
  | rxValid =>
    obtain ⟨B, -, rfl⟩ := Option.map_eq_some_iff.1 h
    exact ⟨List.mem_singleton.2 rfl, hok rfl⟩
  | typeSeqAcknowledge sq | typeSeqDisconnect sq | typeSeqLinkRequest sq | typeSeqData sq => cases h
  | crcClr | crcFold x | crcRd | rxClear | status => cases h; exact ⟨List.mem_singleton.2 rfl, hok rfl⟩

theorem exec_answers {i : Instr} {s t : State} (h : exec i s = .next t) :
    if isCommand i = true then ∃ r, t.ports.resp = s.ports.resp ++ [r] ∧ r.status ∈ possibleStatuses i
    else t.ports.resp = s.ports.resp := by
  obtain ⟨hc, e, he, rfl⟩ | ⟨ty, sq, rfl, rfl⟩ := exec_next_cases h
  · rw [if_pos hc]
    exact ⟨e.2, rfl, (commandEffect_answer he).1⟩
  · cases ty <;> rfl

/-- Settles O44: `exec_answers`, and the codes as listed. -/
theorem everyCommandAnswersOnce : Obligations.EveryCommandAnswersOnce := by
  refine ⟨fun i s t h => ?_, ⟨rfl, rfl, rfl, rfl, rfl, rfl⟩, fun r => ?_⟩
  · cases i <;> exact exec_answers h
  · cases r.status <;> decide

/-- Settles O45: the response given is the command's own, and it fails cleanly. -/
theorem failedCommandChangesNothing : Obligations.FailedCommandChangesNothing := by
  intro i s t r h hresp hfail
  obtain ⟨-, e, he, rfl⟩ | ⟨ty, sq, -, rfl⟩ := exec_next_cases h
  · have hr : e.2 = r := by simpa using hresp
    subst hr
    rw [← (commandEffect_answer he).2 hfail]
    rfl
  · simp at hresp

/-! ## What the buffer holds (R26) -/

theorem rxBytes_eq_of_rxSide {b c : Block} (h : c.rxSide = b.rxSide) : c.rxBytes = b.rxBytes := by
  obtain ⟨hlen, -, hbuf⟩ := rxSide_eq_iff.1 h
  rw [Block.rxBytes, hlen, hbuf, Block.rxBytes]

theorem length_of_rxBytes {b : Block} {B : List Byte} (h : b.rxBytes = some B) : B.length = b.rxLen.toNat :=
  ((Memory.readBytes_eq_some _ _ _ _).1 h).1

/-- An accepted push puts its bytes behind those held. -/
theorem rxBytes_push_accepted {b : Block} {B bytes : List Byte} (hB : b.rxBytes = some B)
    (hfit : b.rxLen.toNat + bytes.length ≤ Config.maxFrame) : (rxPushEffect bytes b).1.rxBytes = some (B ++ bytes) := by
  rw [rxPushEffect_accepted hfit, Block.rxBytes, rxLen_push hfit]
  exact Memory.readBytes_writeBytes _ hB bytes

theorem rxBytes_push {b : Block} {B : List Byte} (hB : b.rxBytes = some B) (bytes : List Byte) :
    (rxPushEffect bytes b).1.rxBytes = some (if B.length + bytes.length ≤ 512 then B ++ bytes else B) := by
  rw [length_of_rxBytes hB, ← maxFrame_eq]
  split
  next hfit => exact rxBytes_push_accepted hB hfit
  next hov =>
    rw [rxPushEffect_overrun (Nat.lt_of_not_le hov)]
    exact hB

theorem rxBytes_consumeOn_true {b : Block} {B : List Byte} (hB : b.rxBytes = some B) :
    (consumeOn true (extract B) b).rxBytes = some (if (extract B).status = .ok then [] else B) := by
  by_cases hok : (extract B).status = .ok
  · rw [if_pos hok, consumeOn, Bool.true_and, beq_iff_eq.2 hok]
    rfl
  · rw [if_neg hok, consumeOn, Bool.true_and, beq_eq_false_iff_ne.2 hok]
    exact hB

/-- The bytes held after an instruction, from those held before it. -/
def bufferAfter (i : Instr) (B : List Byte) : List Byte :=
  match i with
  | .rxPush bytes => if B.length + bytes.length ≤ 512 then B ++ bytes else B
  | .rxClear => []
  | .rxExtract true => if (extract B).status = .ok then [] else B
  | _ => B

theorem commandEffect_rxBytes {i : Instr} {b : Block} {e : Block × Response} (h : commandEffect i b = some e)
    {B : List Byte} (hB : b.rxBytes = some B) : e.1.rxBytes = some (bufferAfter i B) := by
  cases i with
  | rxPush bytes => cases h; exact rxBytes_push hB bytes
  | rxClear => cases h; rfl
  | rxExtract c =>
    cases c with
    | true =>
      rw [commandEffect, rxExtractEffect_some hB] at h
      cases h
      exact rxBytes_consumeOn_true hB
    | false => exact (rxBytes_eq_of_rxSide (commandEffect_rxSide h (by simp) (by simp) (by simp))).trans hB
  | _ => exact (rxBytes_eq_of_rxSide (commandEffect_rxSide h (by simp) (by simp) (by simp))).trans hB

/-- Settles O31, by `commandEffect_rxBytes`; a typeSeq row leaves the block. -/
theorem bufferHoldsPushedBytes : Obligations.BufferHoldsPushedBytes := by
  intro i s t B _ hB h
  obtain ⟨-, e, he, rfl⟩ | ⟨ty, sq, rfl, rfl⟩ := exec_next_cases h
  · exact commandEffect_rxBytes he hB
  · cases ty <;> exact hB

/-! ## Bytes beyond the length (R18) -/

/-- The block with another buffer memory. -/
def Block.withRxBuf (b : Block) (m : Memory) : Block := { b with rxBuf := m }

/-- Block `c` differs from `b` in the buffer alone, and there at or beyond `rx_len` alone. -/
def RxAgree (b c : Block) : Prop :=
  c = b.withRxBuf c.rxBuf ∧ ∀ a, a < b.rxLen.toNat → c.rxBuf.read a = b.rxBuf.read a

/-- One response, and blocks that agree. -/
def AnswersAgree (e f : Block × Response) : Prop := f.2 = e.2 ∧ RxAgree e.1 f.1

section
variable {b : Block} {m : Memory} (h : ∀ a, a < b.rxLen.toNat → m.read a = b.rxBuf.read a)
include h

theorem rxBytes_withRxBuf : (b.withRxBuf m).rxBytes = b.rxBytes :=
  Memory.readBytes_congr fun k hk => h _ (by rwa [Nat.zero_add])

/-- An effect that carries the other memory through answers alike. -/
theorem AnswersAgree.of_carried {e f : Block × Response} (hf : f = (e.1.withRxBuf m, e.2))
    (he : e.1.rxSide = b.rxSide) : AnswersAgree e f := by
  obtain ⟨hlen, -, hbuf⟩ := rxSide_eq_iff.1 he
  subst hf
  refine ⟨rfl, rfl, fun a ha => ?_⟩
  rw [hbuf]
  exact h a (hlen ▸ ha)

theorem AnswersAgree.push (bytes : List Byte) :
    AnswersAgree (rxPushEffect bytes b) (rxPushEffect bytes (b.withRxBuf m)) := by
  by_cases hov : Config.maxFrame < b.rxLen.toNat + bytes.length
  · rw [rxPushEffect_overrun hov, rxPushEffect_overrun (b := b.withRxBuf m) hov]
    exact ⟨rfl, rfl, h⟩
  · have hfit : b.rxLen.toNat + bytes.length ≤ Config.maxFrame := by omega
    rw [rxPushEffect_accepted hfit, rxPushEffect_accepted (b := b.withRxBuf m) hfit]
    refine ⟨rfl, rfl, fun a ha => ?_⟩
    simp only [rxLen_push hfit] at ha
    have hread (n : Memory) := Memory.read_writeBytes n bytes b.rxLen.toNat a
    refine (hread m).trans (Eq.trans ?_ (hread b.rxBuf).symm)
    split
    · rfl
    · exact h a (by omega)

theorem AnswersAgree.consumeOn (c : Bool) (r : Response) :
    AnswersAgree (consumeOn c r b, r) (consumeOn c r (b.withRxBuf m), r) := by
  unfold Machine.consumeOn
  split
  · exact ⟨rfl, rfl, fun _ _ => rfl⟩
  · exact ⟨rfl, rfl, h⟩

/-- A command answers alike whatever stands beyond `rx_len`. -/
theorem commandEffect_agree (i : Instr) :
    Option.Rel AnswersAgree (commandEffect i b) (commandEffect i (b.withRxBuf m)) := by
  cases i with
  | rxPush bytes => exact .some (.push h bytes)
  | rxExtract c =>
    simp only [commandEffect, rxExtractEffect, rxBytes_withRxBuf h]
    cases b.rxBytes with
    | none => exact .none
    | some B => exact .some (.consumeOn h c (extract B))
  | rxValid =>
    simp only [commandEffect, rxValidEffect, rxBytes_withRxBuf h]
    cases b.rxBytes with
    | none => exact .none
    | some B => exact .some ⟨rfl, rfl, h⟩
  | rxClear => exact .some ⟨rfl, rfl, fun _ _ => rfl⟩
  | encStart t sq =>
    refine .some (.of_carried h ?_ (encStartEffect_rxSide b t sq))
    cases hb : b.encPhase <;> simp [encStartEffect, Block.withRxBuf, hb, Block.put, Block.emit]
  | encData x =>
    refine .some (.of_carried h ?_ (encDataEffect_rxSide b x))
    cases hb : b.encPhase <;> simp [encDataEffect, Block.withRxBuf, hb, Block.put, Block.emit]
  | encEnd =>
    refine .some (.of_carried h ?_ (encEndEffect_rxSide b))
    cases hb : b.encPhase <;> simp [encEndEffect, Block.withRxBuf, hb, Block.emit]
  | crcClr | crcFold x | crcRd | status => exact .some (.of_carried h rfl rfl)
  | typeSeqAcknowledge sq | typeSeqDisconnect sq | typeSeqLinkRequest sq | typeSeqData sq => exact .none

end

/-- Two outcomes of one kind: next states related by `R`, or the same stop. -/
inductive OutcomeRel (R : State → State → Prop) :
    Host.Outcome State Fault Refusal → Host.Outcome State Fault Refusal → Prop where
  | next {t u : State} (h : R t u) : OutcomeRel R (.next t) (.next u)
  | fault (f : Fault) : OutcomeRel R (.fault f) (.fault f)
  | refused (r : Refusal) : OutcomeRel R (.refused r) (.refused r)

/-- The same state but for buffer bytes at or beyond `rx_len`. -/
def SameBelowLength (t u : State) : Prop := u.ports = t.ports ∧ u.env = t.env ∧ RxAgree t.block u.block

theorem completeRead_agree {s : State} {m : Memory} {e f : Option (Block × Response)}
    (h : Option.Rel AnswersAgree e f) :
    OutcomeRel SameBelowLength (s.completeRead e) ({ s with block := s.block.withRxBuf m }.completeRead f) := by
  cases h with
  | none => exact .fault _
  | some h =>
    obtain ⟨hresp, hagree⟩ := h
    exact .next ⟨by simp [State.complete, hresp], rfl, hagree⟩

theorem exec_agree {s : State} {m : Memory} (h : ∀ a, a < s.block.rxLen.toNat → m.read a = s.block.rxBuf.read a)
    (i : Instr) : OutcomeRel SameBelowLength (exec i s) (exec i { s with block := s.block.withRxBuf m }) := by
  cases hc : isCommand i with
  | true =>
    rw [exec_command hc, exec_command hc]
    exact completeRead_agree (commandEffect_agree h i)
  | false =>
    obtain ⟨ty, sq, rfl⟩ := isCommand_false hc
    rw [exec_typeSeq, exec_typeSeq]
    exact .next ⟨rfl, rfl, rfl, h⟩

/-- Settles O34, by `exec_agree`. -/
theorem bytesBeyondLengthNeverMatter : Obligations.BytesBeyondLengthNeverMatter := by
  intro i s m h
  have hno := exec_not_refused i s
  have hrel := exec_agree h i
  unfold Block.withRxBuf at hrel
  generalize exec i { s with block := { s.block with rxBuf := m } } = o at hrel
  generalize exec i s = p at hno hrel
  cases hrel with
  | next h => exact h
  | fault f => rfl
  | refused r => exact hno r rfl

/-- Settles O50: each row is a typeSeq instruction, whose encoding is R51's byte with the type's bits written out. -/
theorem typeSeqRowsReadFields : Obligations.TypeSeqRowsReadFields := by
  refine fun sq s => ⟨⟨rfl, rfl, rfl, rfl⟩, ?_⟩
  revert sq
  decide

end Sys2Proof.Machine
end

section
/-! PROOFS. Family other: the table and its division steps (R70, R71), and the three laws of fold (R74). -/

namespace Sys2Proof.Machine

/-! ## The table (R70, R71) -/

theorem length_crcTable : crcTable.length = 256 := by decide +kernel

theorem crcTable_getElem? (i : Byte) : crcTable[i.toNat]? = some (tblRead i) := by
  have hi : i.toNat < crcTable.length := length_crcTable ▸ i.isLt
  rw [tblRead, List.getElem?_eq_getElem hi, List.getD_eq_getElem _ _ hi]

theorem divisionSteps_eq_iterate (n : Nat) (c : Word) : divisionSteps n c = divisionStep^[n] c := by
  induction n generalizing c with
  | zero => rfl
  | succ n ih => rw [divisionSteps, ih, Function.iterate_succ_apply]

/-- Settles O12: the entries by `tblRead_eq_swap16_rawEntry`, R71's checks by evaluation of the listing. -/
theorem tableIsGenerated : Obligations.TableIsGenerated := by
  refine ⟨length_crcTable, fun i => ⟨rawEntry i, divisionSteps_eq_iterate 8 _, ?_, crcTable_getElem? i⟩,
    by decide +kernel, by decide +kernel, by decide, by decide, by decide⟩
  rw [crcTable_getElem?, tblRead_eq_swap16_rawEntry]
  rfl

/-! ## Linearity (R74) -/

theorem getLsbD_divisionStep (c : Word) (i : Nat) :
    (divisionStep c).getLsbD i = (c.getLsbD (1 + i) ^^ (c.getLsbD 0 && Config.crcPolyR.getLsbD i)) := by
  unfold divisionStep
  cases h : c.getLsbD 0 <;> simp

theorem divisionStep_xor (c d : Word) : divisionStep (c ^^^ d) = divisionStep c ^^^ divisionStep d := by
  apply BitVec.eq_of_getLsbD_eq
  intro i hi
  simp only [BitVec.getLsbD_xor, getLsbD_divisionStep]
  cases c.getLsbD 0 <;> cases d.getLsbD 0 <;> cases Config.crcPolyR.getLsbD i <;> simp

theorem divisionSteps_xor (n : Nat) (c d : Word) :
    divisionSteps n (c ^^^ d) = divisionSteps n c ^^^ divisionSteps n d := by
  induction n generalizing c d with
  | zero => rfl
  | succ n ih => rw [divisionSteps, divisionStep_xor, ih, divisionSteps, divisionSteps]

theorem rawEntry_xor (i j : Byte) : rawEntry (i ^^^ j) = rawEntry i ^^^ rawEntry j := by
  rw [rawEntry, BitVec.setWidth_xor, divisionSteps_xor, rawEntry, rawEntry]

/-- The bits of a swapped word: its two bytes have changed places. -/
theorem getLsbD_swap16 (v : Word) {i : Nat} (hi : i < 16) :
    (swap16 v).getLsbD i = if i < 8 then v.getLsbD (8 + i) else v.getLsbD (i - 8) := by
  have hmask : ∀ j < 16, (0xFF : Word).getLsbD j = decide (j < 8) := by decide
  simp only [swap16, BitVec.getLsbD_or, BitVec.getLsbD_shiftLeft, BitVec.getLsbD_and, BitVec.getLsbD_ushiftRight,
    hmask (i - 8) (by omega)]
  by_cases h8 : i < 8
  · simp [h8]
  · have hlow : i - 8 < 8 := by omega
    have hhigh : v.getLsbD (8 + i) = false := BitVec.getLsbD_of_ge _ _ (by omega)
    simp [h8, hi, hlow, hhigh]

theorem swap16_xor (v w : Word) : swap16 (v ^^^ w) = swap16 v ^^^ swap16 w := by
  apply BitVec.eq_of_getLsbD_eq
  intro i hi
  simp only [BitVec.getLsbD_xor, getLsbD_swap16 _ hi]
  split <;> rfl

theorem tblRead_xor (i j : Byte) : tblRead (i ^^^ j) = tblRead i ^^^ tblRead j := by
  simp only [tblRead_eq_swap16_rawEntry, rawEntry_xor, swap16_xor]

theorem highByte_xor (v w : Word) : highByte (v ^^^ w) = highByte v ^^^ highByte w := BitVec.extractLsb'_xor

theorem fold_xor (s1 s2 : Word) (b1 b2 : Byte) : fold (s1 ^^^ s2) (b1 ^^^ b2) = fold s1 b1 ^^^ fold s2 b2 := by
  have hindex : b1 ^^^ b2 ^^^ highByte (s1 ^^^ s2) = (b1 ^^^ highByte s1) ^^^ (b2 ^^^ highByte s2) := by
    rw [highByte_xor]
    ac_rfl
  have hshift : (s1 ^^^ s2) <<< 8 = s1 <<< 8 ^^^ s2 <<< 8 := BitVec.shiftLeft_xor_distrib ..
  rw [fold, hindex, tblRead_xor, hshift, fold, fold]
  ac_rfl

/-! ## Zero bytes, and the right-shifting engine (R74) -/

theorem checksum_replicate_zero (n : Nat) : checksum (List.replicate n 0x00) = 0x0000 := by
  have hzero : fold Config.crcInit 0x00 = Config.crcInit := by decide
  rw [checksum]
  induction n with
  | zero => rfl
  | succ n ih => rw [List.replicate_succ, foldAll_cons, hzero, ih]

theorem highByte_swap16 (s : Word) : highByte (swap16 s) = s.setWidth 8 := by
  apply BitVec.eq_of_getLsbD_eq
  intro i hi
  rw [highByte, BitVec.getLsbD_extractLsb', getLsbD_swap16 _ (by omega), if_neg (by omega), Nat.add_sub_cancel_left,
    BitVec.getLsbD_setWidth]

theorem swap16_shiftRight (s : Word) : swap16 (s >>> 8) = swap16 s <<< 8 := by
  apply BitVec.eq_of_getLsbD_eq
  intro i hi
  rw [getLsbD_swap16 _ hi, BitVec.getLsbD_shiftLeft, BitVec.getLsbD_ushiftRight, BitVec.getLsbD_ushiftRight]
  by_cases h8 : i < 8
  · have hbeyond : s.getLsbD (8 + (8 + i)) = false := BitVec.getLsbD_of_ge _ _ (by omega)
    simp [h8, hbeyond]
  · rw [getLsbD_swap16 _ (by omega), if_neg h8, if_pos (by omega)]
    simp [h8, hi]

theorem fold_swap16 (s : Word) (b : Byte) :
    fold (swap16 s) b = swap16 ((s >>> 8) ^^^ rawEntry ((s ^^^ b.setWidth 16).setWidth 8)) := by
  have hindex : (s ^^^ b.setWidth 16).setWidth 8 = b ^^^ s.setWidth 8 := by
    rw [BitVec.setWidth_xor, BitVec.setWidth_setWidth_of_le _ (by decide), BitVec.setWidth_eq, BitVec.xor_comm]
  rw [fold, highByte_swap16, tblRead_eq_swap16_rawEntry, swap16_xor, swap16_shiftRight, hindex]

/-- Settles O14: a zero byte leaves the checksum at 0, each part of `fold` is linear, and the swap moves the state's low
byte to where `fold` reads it. -/
theorem foldLaws : Obligations.FoldLaws := ⟨checksum_replicate_zero, fold_xor, fold_swap16⟩

end Sys2Proof.Machine
end

section
/-! PROOFS. Family other: runs of commands, the pseudo-instructions (R64, R89, R107), and a frame delivered in pieces
(R109). -/

namespace Sys2Proof.Machine

/-! ## Runs of commands (R38) -/

theorem execAll_cons_of_next {i : Instr} {s t : State} (h : exec i s = .next t) (is : List Instr) :
    execAll (i :: is) s = execAll is t := by
  rw [execAll, h]

theorem execAll_cons_inv {i : Instr} {is : List Instr} {s u : State} (h : execAll (i :: is) s = .next u) :
    ∃ t, exec i s = .next t ∧ execAll is t = .next u := by
  rw [execAll] at h
  split at h
  next t ht => exact ⟨t, ht, h⟩
  · cases h
  · cases h

theorem execAll_singleton (i : Instr) (s : State) : execAll [i] s = exec i s := by
  rw [execAll]
  cases exec i s <;> rfl

/-- Under the receive invariant a command reads only bytes that are there. -/
theorem commandEffect_isSome {i : Instr} (hi : isCommand i = true) {b : Block} (h : RxInv b) :
    ∃ e, commandEffect i b = some e := by
  obtain ⟨B, hB, -⟩ := h.rxBytes
  cases i with
  | rxExtract c => exact ⟨_, rxExtractEffect_some hB⟩
  | rxValid => exact ⟨_, rxValidEffect_some hB⟩
  | typeSeqAcknowledge sq | typeSeqDisconnect sq | typeSeqLinkRequest sq | typeSeqData sq => cases hi
  | _ => exact ⟨_, rfl⟩

theorem exec_completes {s : State} (h : RxInv s.block) (i : Instr) : ∃ t, exec i s = .next t := by
  cases hi : isCommand i with
  | true =>
    obtain ⟨e, he⟩ := commandEffect_isSome hi h
    exact ⟨s.complete e, by rw [exec_command hi, he, State.completeRead_some]⟩
  | false =>
    obtain ⟨ty, sq, rfl⟩ := isCommand_false hi
    exact ⟨_, exec_typeSeq ty sq s⟩

theorem execAll_completes (is : List Instr) {s : State} (h : RxInv s.block) : ∃ u, execAll is s = .next u := by
  induction is generalizing s with
  | nil => exact ⟨s, rfl⟩
  | cons i is ih =>
    obtain ⟨t, ht⟩ := exec_completes h i
    rw [execAll_cons_of_next ht]
    exact ih (exec_rxInv ht h)

/-- What every command keeps of the block. -/
def KeptByCommands (P : Block → Prop) : Prop := ∀ i b e, commandEffect i b = some e → P b → P e.1

theorem KeptByCommands.exec {P : Block → Prop} (hP : KeptByCommands P) {i : Instr} {s t : State}
    (h : exec i s = .next t) (hs : P s.block) : P t.block := by
  obtain hb | ⟨e, he, hb⟩ := exec_block_cases h <;> rw [hb]
  · exact hs
  · exact hP i _ e he hs

theorem KeptByCommands.execAll {P : Block → Prop} (hP : KeptByCommands P) {is : List Instr} {s u : State}
    (h : execAll is s = .next u) (hs : P s.block) : P u.block := by
  induction is generalizing s with
  | nil => cases h; exact hs
  | cons i is ih =>
    obtain ⟨t, ht, hu⟩ := execAll_cons_inv h
    exact ih hu (hP.exec ht hs)

theorem execAll_frame {is : List Instr} {s u : State} (h : execAll is s = .next u) :
    u.env = s.env ∧ u.ports.inputs = s.ports.inputs ∧ u.ports.rxIn = s.ports.rxIn ∧
      u.ports.txTaken = s.ports.txTaken ∧ u.ports.host = s.ports.host := by
  induction is generalizing s with
  | nil => cases h; exact ⟨rfl, rfl, rfl, rfl, rfl⟩
  | cons i is ih =>
    obtain ⟨t, ht, hu⟩ := execAll_cons_inv h
    obtain ⟨henv, hinputs, hrxIn, htaken, hhost⟩ := ih hu
    obtain ⟨henv', hinputs', hrxIn', htaken', hhost'⟩ := exec_frame ht
    exact ⟨henv.trans henv', hinputs.trans hinputs', hrxIn.trans hrxIn', htaken.trans htaken', hhost.trans hhost'⟩

/-! ## ENCODE (R64, R89) -/

/-- The commands of ENCODE, in order. -/
def encodeCommands (t : PacketType) (sq : BitVec 3) (payload : List Byte) : List Instr :=
  .encStart t sq :: (payload.map .encData ++ [.encEnd])

theorem execAll_encData (payload : List Byte) (rest : List Instr) (s : State) :
    execAll (payload.map .encData ++ rest) s =
      execAll rest (payload.foldl (fun s b => s.complete (encDataEffect b s.block)) s) := by
  induction payload generalizing s with
  | nil => rfl
  | cons b bs ih => rw [List.map_cons, List.cons_append, execAll_cons_of_next (exec_encData s b), ih, List.foldl_cons]

/-- ENCODE on the block is the run of its commands. -/
theorem execAll_encodeCommands (t : PacketType) (sq : BitVec 3) (payload : List Byte) (s : State) :
    execAll (encodeCommands t sq payload) s = .next (encodeOnBlock t sq payload s).1 := by
  rw [encodeCommands, execAll_cons_of_next (exec_encStart s t sq), execAll_encData, execAll_singleton, exec_encEnd]
  rfl

/-- From ENC.START on, in whatever phase it came, the encoder is in `BODY`. -/
theorem encStartEffect_encPhase (t : PacketType) (sq : BitVec 3) (b : Block) :
    (encStartEffect t sq b).1.encPhase = .body := by
  cases h : b.encPhase with
  | idle => rw [encStartEffect_idle h]
  | body => rw [encStartEffect_body h, h]

/-- In whatever phase it begins, ENCODE ends with the payload, the postamble and the checksum emitted. -/
theorem encodeOnBlock_txOut (t : PacketType) (sq : BitVec 3) (payload : List Byte) (s : State) :
    (encodeOnBlock t sq payload s).1.block.txOut = (encStartEffect t sq s.block).1.txOut ++ stuffAll payload ++
      frameTail (foldAll (encStartEffect t sq s.block).1.txCrc payload) := by
  have hbody : (s.complete (encStartEffect t sq s.block)).block.encPhase = .body := encStartEffect_encPhase t sq s.block
  have hended : (encodeOnBlock t sq payload s).1.block.txOut = (encEndEffect
      (payload.foldl (fun s b => s.complete (encDataEffect b s.block))
        (s.complete (encStartEffect t sq s.block))).block).1.txOut := rfl
  rw [hended, foldl_encData _ _ hbody]
  refine (congrArg (·.1.txOut) (encEndEffect_body ?_)).trans rfl
  exact hbody

/-! ## Emitted bytes are never recalled (R20, R39) -/

theorem encStartEffect_txOut_grows (t : PacketType) (sq : BitVec 3) (b : Block) :
    b.txOut <+: (encStartEffect t sq b).1.txOut := by
  cases h : b.encPhase with
  | idle =>
    rw [encStartEffect_idle h, List.append_assoc]
    exact ⟨_, rfl⟩
  | body => rw [encStartEffect_body h]

theorem encDataEffect_txOut_grows (x : Byte) (b : Block) : b.txOut <+: (encDataEffect x b).1.txOut := by
  cases h : b.encPhase with
  | idle => rw [encDataEffect_idle h]
  | body => rw [encDataEffect_body h]; exact ⟨_, rfl⟩

theorem encEndEffect_txOut_grows (b : Block) : b.txOut <+: (encEndEffect b).1.txOut := by
  cases h : b.encPhase with
  | idle => rw [encEndEffect_idle h]
  | body => rw [encEndEffect_body h]; exact ⟨_, rfl⟩

theorem commandEffect_txOut_grows {i : Instr} {b : Block} {e : Block × Response} (h : commandEffect i b = some e) :
    b.txOut <+: e.1.txOut := by
  cases hi : isEnc i with
  | false =>
    obtain ⟨-, -, hout⟩ := txSide_eq_iff.1 (commandEffect_txSide h hi)
    rw [hout]
  | true =>
    cases i with
    | encStart t sq => cases h; exact encStartEffect_txOut_grows t sq b
    | encData x => cases h; exact encDataEffect_txOut_grows x b
    | encEnd => cases h; exact encEndEffect_txOut_grows b
    | _ => cases hi

/-- The bytes ENCODE appends: some, in every phase. -/
theorem encodeOnBlock_appends (t : PacketType) (sq : BitVec 3) (payload : List Byte) (s : State) :
    (encodeOnBlock t sq payload s).1.block.txOut = s.block.txOut ++ (encodeOnBlock t sq payload s).2 ∧
      0 < (encodeOnBlock t sq payload s).2.length := by
  have hdrop : (encodeOnBlock t sq payload s).2 =
    (encodeOnBlock t sq payload s).1.block.txOut.drop s.block.txOut.length := rfl
  obtain ⟨new, hnew⟩ := encStartEffect_txOut_grows t sq s.block
  rw [hdrop, encodeOnBlock_txOut, ← hnew, List.append_assoc, List.append_assoc, List.drop_left]
  refine ⟨rfl, ?_⟩
  simp only [List.length_append, length_frameTail]
  omega

/-! ## The encoder whatever is interleaved (R89) -/

section
variable {b c : Block} (h : b.txSide = c.txSide)
include h

theorem encStartEffect_txSide_congr (t : PacketType) (sq : BitVec 3) :
    (encStartEffect t sq b).1.txSide = (encStartEffect t sq c).1.txSide := by
  obtain ⟨hphase, hcrc, hout⟩ := txSide_eq_iff.1 h
  cases hc : c.encPhase with
  | idle =>
    rw [encStartEffect_idle hc, encStartEffect_idle (hphase.trans hc), txSide_eq_iff]
    exact ⟨rfl, rfl, by rw [hout]⟩
  | body => rw [encStartEffect_body hc, encStartEffect_body (hphase.trans hc), h]

theorem encDataEffect_txSide_congr (x : Byte) : (encDataEffect x b).1.txSide = (encDataEffect x c).1.txSide := by
  obtain ⟨hphase, hcrc, hout⟩ := txSide_eq_iff.1 h
  cases hc : c.encPhase with
  | idle => rw [encDataEffect_idle hc, encDataEffect_idle (hphase.trans hc), h]
  | body =>
    rw [encDataEffect_body hc, encDataEffect_body (hphase.trans hc), txSide_eq_iff]
    exact ⟨hphase, by simp [hcrc], by simp [hout]⟩

theorem encEndEffect_txSide_congr : (encEndEffect b).1.txSide = (encEndEffect c).1.txSide := by
  obtain ⟨hphase, hcrc, hout⟩ := txSide_eq_iff.1 h
  cases hc : c.encPhase with
  | idle => rw [encEndEffect_idle hc, encEndEffect_idle (hphase.trans hc), h]
  | body =>
    rw [encEndEffect_body hc, encEndEffect_body (hphase.trans hc), txSide_eq_iff]
    exact ⟨rfl, hcrc, by simp [hcrc, hout]⟩

end

theorem exec_txSide_congr {i : Instr} (hi : isEnc i = true) {s t v w : State} (h : s.block.txSide = v.block.txSide)
    (ht : exec i s = .next t) (hw : exec i v = .next w) : t.block.txSide = w.block.txSide := by
  cases i with
  | encStart ty sq =>
    rw [exec_encStart] at ht hw
    cases ht; cases hw
    exact encStartEffect_txSide_congr h ty sq
  | encData x =>
    rw [exec_encData] at ht hw
    cases ht; cases hw
    exact encDataEffect_txSide_congr h x
  | encEnd =>
    rw [exec_encEnd] at ht hw
    cases ht; cases hw
    exact encEndEffect_txSide_congr h
  | _ => cases hi

/-- The encoder ends as if its own commands alone had run. -/
theorem execAll_txSide_filter {is : List Instr} {s u v w : State} (h : s.block.txSide = v.block.txSide)
    (hu : execAll is s = .next u) (hw : execAll (is.filter isEnc) v = .next w) : u.block.txSide = w.block.txSide := by
  induction is generalizing s v with
  | nil => cases hu; cases hw; exact h
  | cons i is ih =>
    obtain ⟨t, ht, hu⟩ := execAll_cons_inv hu
    cases hi : isEnc i with
    | true =>
      rw [List.filter_cons_of_pos hi] at hw
      obtain ⟨x, hx, hw⟩ := execAll_cons_inv hw
      exact ih (exec_txSide_congr hi h ht hx) hu hw
    | false =>
      rw [List.filter_cons_of_neg (by simp [hi])] at hw
      exact ih ((exec_txSide ht hi).trans h) hu hw

/-- Settles O23: the whole list completes, and leaves the encoder as ENCODE alone does. -/
theorem encoderCommandsEqualEncode : Obligations.EncoderCommandsEqualEncode := by
  intro t sq payload commands s hinv hidle hfilter
  obtain ⟨u, hu⟩ := execAll_completes commands hinv
  have hencode := execAll_encodeCommands t sq payload s
  rw [encodeCommands, ← hfilter, encodeOnBlock_idle hidle] at hencode
  obtain ⟨hphase, -, hout⟩ := txSide_eq_iff.1 (execAll_txSide_filter rfl hu hencode)
  exact ⟨u, hu, hphase.trans hidle, hout⟩

/-- Settles O54: ENCODE runs to `encodeOnBlock`'s state, which `send_free` completes with the count and the write. -/
theorem sendWritesWhatEncodeAppends : Obligations.SendWritesWhatEncodeAppends := by
  intro t payload s hfree ctr sq
  have hsq : sendSeq t s.env = sq := sendSeq_eq_sendCtr t s.env
  have hsend := send_free t payload hfree
  rw [hsq] at hsend
  obtain ⟨happ, -⟩ := encodeOnBlock_appends t sq payload (s.admitSend t)
  refine ⟨_, execAll_encodeCommands t sq payload (s.admitSend t), ?_, ?_⟩
  · rw [happ]
    exact congrArg _ List.drop_left.symm
  · rw [hsend, encodeOnBlock_env]
    rfl

/-! ## CHECKSUM (R64, R73) -/

theorem execAll_crcFold (bytes : List Byte) (rest : List Instr) (s : State) :
    execAll (bytes.map .crcFold ++ rest) s =
      execAll rest { s with
        block := { s.block with crcAcc := foldAll s.block.crcAcc bytes }
        ports := { s.ports with resp := s.ports.resp ++ List.replicate bytes.length .ok } } := by
  induction bytes generalizing s with
  | nil => simp
  | cons b bs ih =>
    rw [List.map_cons, List.cons_append, execAll_cons_of_next (exec_crcFold s b), ih]
    simp [State.complete, List.replicate_succ]

/-- Settles O18: the clear, the folds by `execAll_crcFold`, the read. -/
theorem checksumPseudoAnswersChecksum : Obligations.ChecksumPseudoAnswersChecksum := by
  intro bytes s
  rw [execPseudo, expandPseudo, execAll_cons_of_next (exec_crcClr s), execAll_crcFold, execAll_singleton, exec_crcRd]
  simp [State.complete, List.replicate_succ, checksum, Config.crcInit]

/-! ## DELIVER (R107) -/

/-- DELIVER is its push, and behind an accepted one the consuming extraction. -/
theorem execPseudo_deliver (bytes : List Byte) (s : State) :
    execPseudo (.deliver bytes) s =
      if 512 < s.block.rxLen.toNat + bytes.length then .next (s.complete (rxPushEffect bytes s.block))
      else exec (.rxExtract true) (s.complete (rxPushEffect bytes s.block)) := by
  rw [← maxFrame_eq]
  split
  next hov => simp [execPseudo, deliver, rxPushEffect_overrun hov, Response.status]
  next hfit =>
    have hstatus : (rxPushEffect bytes s.block).2.status ≠ .overrun := by
      simp [rxPushEffect_accepted (Nat.le_of_not_lt hfit), Response.status]
    rw [exec_command rfl, commandEffect, State.complete_block]
    simp only [execPseudo, deliver, if_neg hstatus, State.complete_block]
    cases rxExtractEffect true (rxPushEffect bytes s.block).1 <;> rfl

theorem rxPushEffect_response_eq_overrun_iff (bytes : List Byte) (b : Block) :
    (rxPushEffect bytes b).2 = .overrun ↔ 512 < b.rxLen.toNat + bytes.length := by
  simp [rxPushEffect_response, overruns, maxFrame_eq]

/-- If an accepted push's buffer can be read, so could the buffer before it. -/
theorem rxBytes_of_push_accepted {b : Block} {bytes C : List Byte}
    (hfit : b.rxLen.toNat + bytes.length ≤ Config.maxFrame) (h : (rxPushEffect bytes b).1.rxBytes = some C) :
    ∃ B, b.rxBytes = some B ∧ C = B ++ bytes := by
  have hsome : b.rxBytes.isSome = true := by
    refine (Memory.readBytes_isSome _ _ _).2 fun k hk => ?_
    have hall := (Memory.readBytes_isSome _ _ _).1 (Option.isSome_of_eq_some h)
    have hread := hall k (by simp only [rxPushEffect_accepted hfit, rxLen_push hfit]; omega)
    rwa [rxPushEffect_read bytes b (by omega)] at hread
  obtain ⟨B, hB⟩ := Option.isSome_iff_exists.1 hsome
  rw [rxBytes_push_accepted hB hfit] at h
  exact ⟨B, hB, (Option.some.inj h).symm⟩

theorem deliver_result {bytes : List Byte} {s t : State} {r : Response} (h : deliver bytes s = .next (t, r)) :
    (r = .overrun ∧ t.ports.resp = s.ports.resp ++ [r]) ∨
      ∃ B, s.block.rxBytes = some B ∧ r = extract (B ++ bytes) ∧ t.ports.resp = s.ports.resp ++ [.ok, r] := by
  obtain ⟨-, rfl, rfl⟩ | ⟨hfit, C, hC, rfl, rfl⟩ := deliver_next_cases h
  · exact .inl ⟨rfl, rfl⟩
  · obtain ⟨B, hB, rfl⟩ := rxBytes_of_push_accepted hfit hC
    refine .inr ⟨B, hB, rfl, ?_⟩
    rw [State.complete_resp, State.complete_resp, rxPushEffect_accepted hfit, List.append_assoc]
    rfl

/-- Settles O43: DELIVER by `execPseudo_deliver` and `deliver_result`; the others are their expansions as they stand. -/
theorem pseudoInstructionsExpand : Obligations.PseudoInstructionsExpand := by
  refine ⟨fun _ _ => rfl, fun _ _ _ _ => rfl, fun bytes s t h => ?_, fun bytes s t r h => ⟨?_, deliver_result h⟩,
    fun s => execAll_singleton .rxValid s, fun s => execAll_singleton .rxClear s⟩
  · rw [exec_rxPush] at h
    cases h
    rw [execPseudo_deliver, State.complete_resp]
    simp only [List.append_cancel_left_eq, List.cons.injEq, and_true, rxPushEffect_response_eq_overrun_iff]
  · rw [execPseudo, h]

/-! ## A frame in pieces (R109) -/

/-- A delivery that fits answers the extraction of the whole buffer. -/
theorem deliver_fits {s : State} {B chunk : List Byte} (hB : s.block.rxBytes = some B)
    (hfit : B.length + chunk.length ≤ 512) :
    ∃ t, deliver chunk s = .next (t, extract (B ++ chunk)) ∧
      t.block.rxBytes = some (if (extract (B ++ chunk)).status = .ok then [] else B ++ chunk) := by
  rw [length_of_rxBytes hB, ← maxFrame_eq] at hfit
  have hpushed := rxBytes_push_accepted hB hfit
  have hstatus : (rxPushEffect chunk s.block).2.status ≠ .overrun := by
    simp [rxPushEffect_accepted hfit, Response.status]
  refine ⟨(s.complete (rxPushEffect chunk s.block)).complete
    (consumeOn true (extract (B ++ chunk)) (rxPushEffect chunk s.block).1, extract (B ++ chunk)), ?_,
    rxBytes_consumeOn_true hpushed⟩
  simp only [deliver, if_neg hstatus, State.complete_block, rxExtractEffect_some hpushed]

/-- A frame that is not all there yet is NOFRAME: its first pair is the postamble, and two bytes are due behind it. -/
theorem extract_incomplete_frame {t : PacketType} {sq : BitVec 3} {payload A later : List Byte}
    (h : hasPair (typeSeqByte t sq :: payload) = false) (hA : A ++ later = encodeFrame t sq payload)
    (hlater : later ≠ []) : extract A = .noFrame := by
  obtain hno | ⟨p, -, -, hp, h4, -⟩ := extract_cases A
  · exact hno
  · have hpair := findPair_append_of_eq_some hp later
    rw [hA, findPair_encodeFrame h] at hpair
    have hlen := length_encodeFrame t sq payload
    rw [← hA, List.length_append] at hlen
    have hpos := List.length_pos_of_ne_nil hlater
    cases hpair
    omega

theorem rxLen_eq_zero_of_rxBytes {b : Block} (h : b.rxBytes = some []) : b.rxLen = 0 :=
  BitVec.eq_of_toNat_eq (length_of_rxBytes h).symm

/-- The pieces still to come, from a buffer that holds the frame's bytes so far. -/
theorem deliverAll_frame {t : PacketType} {sq : BitVec 3} {payload : List Byte}
    (h : hasPair (typeSeqByte t sq :: payload) = false) (hlen : (encodeFrame t sq payload).length ≤ 512)
    (c : List Byte) (cs : List (List Byte)) (hcs : ∀ d ∈ cs, d ≠ []) {A : List Byte} {s : State}
    (hA : s.block.rxBytes = some A) (hflat : A ++ (c :: cs).flatten = encodeFrame t sq payload) :
    ∃ u, deliverAll (c :: cs) s = .next (u, List.replicate cs.length .noFrame ++
        [.okMessage { type := t, seq := sq, payload := payload }]) ∧ u.block.rxBytes = some [] := by
  have hparts : (A ++ c) ++ cs.flatten = encodeFrame t sq payload := by
    rw [← hflat, List.flatten_cons, List.append_assoc]
  have hfit : A.length + c.length ≤ 512 := by
    rw [← hparts, List.length_append, List.length_append] at hlen
    omega
  obtain ⟨v, hv, hbytes⟩ := deliver_fits hA hfit
  cases cs with
  | nil =>
    rw [List.flatten_nil, List.append_nil] at hparts
    rw [hparts, extract_encodeFrame h] at hv hbytes
    exact ⟨v, by simp only [deliverAll, hv]; rfl, hbytes⟩
  | cons d ds =>
    have hlater : (d :: ds).flatten ≠ [] := by simp [hcs d List.mem_cons_self]
    rw [extract_incomplete_frame h hparts hlater] at hv hbytes
    obtain ⟨u, hu, hempty⟩ :=
      deliverAll_frame h hlen d ds (fun e he => hcs e (List.mem_cons_of_mem d he)) hbytes hparts
    refine ⟨u, ?_, hempty⟩
    rw [deliverAll]
    simp only [hv, hu]
    rfl

/-- Settles O42: there is a piece, as a frame has bytes; the pieces by `deliverAll_frame` from the empty buffer. -/
theorem fragmentedDeliveryExtractsOnce : Obligations.FragmentedDeliveryExtractsOnce := by
  intro t sq payload pieces s h hlen hpieces hflat _ hempty
  have hbytes : s.block.rxBytes = some [] := by
    rw [Block.rxBytes, hempty]
    rfl
  cases pieces with
  | nil => cases hflat
  | cons c cs =>
    obtain ⟨u, hu, hdone⟩ :=
      deliverAll_frame h hlen c cs (fun d hd => hpieces d (List.mem_cons_of_mem c hd)) hbytes hflat
    exact ⟨u, hu, hdone, rxLen_eq_zero_of_rxBytes hdone⟩

end Sys2Proof.Machine
end

section
/-! PROOFS. Family other: the environment's handlers (R141 to R150): data available, and single flight. -/

namespace Sys2Proof.Machine

/-! ## Data available (R144, R145, R148) -/

/-- The state in which the handler delivers: the chunk read, the timer armed, a short read logged. -/
def State.readChunk (s : State) (advertised count : Nat) : State :=
  { s with
    env := { s.env with unread := s.env.unread.drop count, inactArmed := true }
    ports := { s.ports with
      host := s.ports.host ++
        (if (s.env.unread.take count).length < advertised then [.diagnostic .shortRead] else []) } }

/-- The handler's outcome, from DELIVER's. -/
def afterDelivery : Host.Outcome (State × Response) Fault Refusal → Host.Outcome State Fault Refusal
  | .next (s, r) => .next (onDelivered s r)
  | .fault f => .fault f
  | .refused r => .refused r

theorem handleDataAvailable_eq (advertised count : Nat) (s : State) :
    handleDataAvailable advertised count s =
      afterDelivery (deliver (s.env.unread.take count) (s.readChunk advertised count)) := by
  have hstart : (if (s.env.unread.take count).length < advertised then
        ({ s with env := { s.env with unread := s.env.unread.drop count, inactArmed := true } } : State).output
          (.diagnostic .shortRead)
      else { s with env := { s.env with unread := s.env.unread.drop count, inactArmed := true } }) =
      s.readChunk advertised count := by
    unfold State.readChunk
    split
    · rfl
    · rw [List.append_nil]
  rw [← hstart]
  unfold handleDataAvailable afterDelivery
  rfl

theorem afterDelivery_next {o : Host.Outcome (State × Response) Fault Refusal} {t : State}
    (h : afterDelivery o = .next t) : ∃ u r, o = .next (u, r) ∧ t = onDelivered u r := by
  cases o with
  | next p => cases h; exact ⟨p.1, p.2, rfl, rfl⟩
  | fault f => cases h
  | refused r => cases h

/-- What the handler gives the host for DELIVER's response. -/
def deliveredOutputs (r : Response) : List HostOutput :=
  match r with
  | .okMessage m => [.packetReceived m]
  | .overrun => [.overrun]
  | _ => []

theorem onDelivered_ports (s : State) (r : Response) :
    (onDelivered s r).ports = { s.ports with host := s.ports.host ++ deliveredOutputs r } := by
  cases r <;> simp [onDelivered, deliveredOutputs, State.output]

/-- A Message, and nothing else, disarms the timer. -/
theorem onDelivered_env (s : State) (r : Response) :
    (onDelivered s r).env = { s.env with inactArmed := s.env.inactArmed && !isMessage r } := by
  cases r <;> simp [onDelivered, isMessage]

/-- Settles O57: the handler by `handleDataAvailable_eq`, its end by the lemmas about `onDelivered`. -/
theorem dataAvailableDelivers : Obligations.DataAvailableDelivers := by
  intro advertised count s u r h
  have henv : u.env = { s.env with unread := s.env.unread.drop count, inactArmed := true } := (deliver_frame h).1
  have hhandled : handleEvent (.dataAvailable advertised count) s = .next (onDelivered u r) :=
    (handleDataAvailable_eq advertised count s).trans (congrArg afterDelivery h)
  refine ⟨onDelivered u r, hhandled, (onDelivered_frame u r).1, ?_, ?_, ?_⟩
  · rw [onDelivered_env, henv]
  · rw [onDelivered_env, henv, Bool.true_and]
  · rw [onDelivered_ports]
    cases r <;> rfl

/-! ## Single flight (R141, R143) -/

/-- An output that neither writes a frame nor reports a `send` admitted. -/
def quiet : HostOutput → Bool
  | .write _ => false
  | .sendResult ok => !ok
  | .packetReceived _ | .overrun | .diagnostic _ => true

theorem writtenFrames_append_quiet {new : List HostOutput} (h : ∀ o ∈ new, quiet o = true) (old : List HostOutput) :
    writtenFrames (old ++ new) = writtenFrames old := by
  have hnone : writtenFrames new = [] := by
    refine List.filterMap_eq_nil_iff.2 fun o ho => ?_
    have hq := h o ho
    cases o with
    | write f => cases hq
    | _ => rfl
  rw [writtenFrames, List.filterMap_append, ← writtenFrames, ← writtenFrames, hnone, List.append_nil]

theorem count_append_quiet {new : List HostOutput} (h : ∀ o ∈ new, quiet o = true) (old : List HostOutput) :
    (old ++ new).count (.sendResult true) = old.count (.sendResult true) := by
  have hnone : HostOutput.sendResult true ∉ new := fun hmem => by cases h _ hmem
  rw [List.count_append, List.count_eq_zero_of_not_mem hnone, Nat.add_zero]

/-- From `s` to `t` the frame in flight stays in flight, `k` of its bytes reported written, and nothing else is sent. -/
structure InFlight (k : Nat) (s t : State) : Prop where
  busy : t.env.busy = true
  outstanding : t.env.outstanding + k = s.env.outstanding
  seqCtr : t.env.seqCtr = s.env.seqCtr
  txOut : t.block.txOut = s.block.txOut
  host : ∃ new, t.ports.host = s.ports.host ++ new ∧ ∀ o ∈ new, quiet o = true

theorem InFlight.trans {k l : Nat} {s t u : State} (h : InFlight k s t) (h' : InFlight l t u) :
    InFlight (k + l) s u := by
  obtain ⟨new, hnew, hq⟩ := h.host
  obtain ⟨new', hnew', hq'⟩ := h'.host
  refine ⟨h'.busy, ?_, h'.seqCtr.trans h.seqCtr, h'.txOut.trans h.txOut, new ++ new', ?_, fun o ho => ?_⟩
  · have hs := h.outstanding
    have ht := h'.outstanding
    omega
  · rw [hnew', hnew, List.append_assoc]
  · exact (List.mem_append.1 ho).elim (hq o) (hq' o)

theorem InFlight.refl {s : State} (h : s.env.busy = true) : InFlight 0 s s :=
  ⟨h, rfl, rfl, rfl, [], (List.append_nil _).symm, fun _ ho => absurd ho List.not_mem_nil⟩

theorem InFlight.output {s : State} (h : s.env.busy = true) {o : HostOutput} (ho : quiet o = true) :
    InFlight 0 s (s.output o) :=
  ⟨h, rfl, rfl, rfl, [o], rfl, fun p hp => by rw [List.mem_singleton.1 hp, ho]⟩

theorem inFlight_handleCompletion {k : Nat} {s : State} (hbusy : s.env.busy = true) (hk : k < s.env.outstanding) :
    InFlight k s (handleCompletion k s) := by
  have henv := handleCompletion_env k s
  have hports := handleCompletion_ports k s
  rw [if_neg (by omega)] at hports
  refine ⟨?_, ?_, by rw [henv], by rw [handleCompletion_block], [], ?_, fun _ ho => absurd ho List.not_mem_nil⟩
  · rw [henv, hbusy, Bool.true_and]
    exact decide_eq_true (by omega)
  · rw [henv]
    exact Nat.sub_add_cancel hk.le
  · rw [hports, List.append_nil]

theorem quiet_deliveredOutputs (r : Response) : ∀ o ∈ deliveredOutputs r, quiet o = true := by
  cases r <;> simp [deliveredOutputs, quiet]

theorem inFlight_handleDataAvailable {advertised count : Nat} {s t : State} (hbusy : s.env.busy = true)
    (h : handleDataAvailable advertised count s = .next t) : InFlight 0 s t := by
  rw [handleDataAvailable_eq] at h
  obtain ⟨u, r, hdeliver, rfl⟩ := afterDelivery_next h
  obtain ⟨henv, -, -, -, hhost, -, -, -, hout⟩ := deliver_frame hdeliver
  refine ⟨?_, ?_, ?_, ?_, (if (s.env.unread.take count).length < advertised then [.diagnostic .shortRead] else []) ++
    deliveredOutputs r, ?_, fun o ho => (List.mem_append.1 ho).elim (fun hshort => ?_) (quiet_deliveredOutputs r o)⟩
  · rw [onDelivered_env, henv]
    exact hbusy
  · rw [onDelivered_env, henv]
    rfl
  · rw [onDelivered_env, henv]
    rfl
  · rw [(onDelivered_frame u r).1, hout]
    rfl
  · rw [onDelivered_ports, hhost, ← List.append_assoc]
    rfl
  · split at hshort
    · rw [List.mem_singleton.1 hshort]
      rfl
    · exact absurd hshort List.not_mem_nil

theorem handleKeepalive_busy {s : State} (hbusy : s.env.busy = true) :
    handleKeepalive s = s ∨ handleKeepalive s = s.output (.diagnostic .linkBusy) := by
  by_cases h : s.env.connected = false ∧ s.env.sendQueue = []
  · rw [handleKeepalive_attempts h.1 h.2, send_busy _ _ hbusy]
    exact .inr rfl
  · rw [handleKeepalive, if_neg h]
    exact .inl rfl

/-- One event while its completion does not cover the bytes outstanding. -/
theorem inFlight_handleEvent {e : Event} {s t : State} (hbusy : s.env.busy = true)
    (hk : completedBytes [e] < s.env.outstanding) (h : handleEvent e s = .next t) :
    InFlight (completedBytes [e]) s t := by
  cases e with
  | send ty payload =>
    rw [handleEvent, handleSend, send_busy ty payload hbusy] at h
    cases h
    exact .output hbusy rfl
  | completion k => cases h; exact inFlight_handleCompletion hbusy hk
  | arrive bytes =>
    cases h
    exact ⟨hbusy, rfl, rfl, rfl, [], (List.append_nil _).symm, fun _ ho => absurd ho List.not_mem_nil⟩
  | dataAvailable advertised count => exact inFlight_handleDataAvailable hbusy h
  | inactivityElapsed =>
    rw [handleEvent, handleInactivity] at h
    split at h <;> cases h
    exact ⟨hbusy, rfl, rfl, rfl, [], (List.append_nil _).symm, fun _ ho => absurd ho List.not_mem_nil⟩
  | keepaliveTick =>
    cases h
    obtain hsame | hlogged := handleKeepalive_busy hbusy
    · rw [hsame]
      exact .refl hbusy
    · rw [hlogged]
      exact .output hbusy rfl
  | repoint => cases h

theorem completedBytes_cons (e : Event) (es : List Event) :
    completedBytes (e :: es) = completedBytes [e] + completedBytes es := by
  cases e <;> simp [completedBytes]

theorem inFlight_handleAll {events : List Event} {s u : State} (hbusy : s.env.busy = true)
    (hk : completedBytes events < s.env.outstanding) (h : handleAll events s = .next u) :
    InFlight (completedBytes events) s u := by
  induction events generalizing s with
  | nil => cases h; exact .refl hbusy
  | cons e es ih =>
    rw [completedBytes_cons] at hk ⊢
    rw [handleAll] at h
    split at h
    next t ht =>
      have hfirst := inFlight_handleEvent hbusy (by omega) ht
      have hleft := hfirst.outstanding
      exact hfirst.trans (ih hfirst.busy (by omega) h)
    · cases h
    · cases h

/-- Settles O56, by `inFlight_handleAll`: its outputs are quiet ones. -/
theorem singleFlightUntilCompletion : Obligations.SingleFlightUntilCompletion := by
  intro events s u hbusy hk h
  have hflight := inFlight_handleAll hbusy hk h
  obtain ⟨new, hnew, hq⟩ := hflight.host
  rw [hnew]
  exact ⟨hflight.busy, hflight.outstanding, hflight.seqCtr, hflight.txOut, writtenFrames_append_quiet hq _,
    count_append_quiet hq _⟩

end Sys2Proof.Machine
end

section
/-! PROOFS. Family other: what one step does with its input (R19, R38, R182), and what every step keeps (R20, R26,
R36). -/

namespace Sys2Proof.Machine

/-! ## The input a step takes -/

section
variable {s : State} {inputs : List Input}

theorem step_command {w : Word} (h : s.ports.inputs = .cmd w :: inputs) : step s = stepCommand w inputs s := by
  simp only [step, stepInput, h]

theorem step_typeSeq {b : Byte} (h : s.ports.inputs = .typeSeq b :: inputs) : step s = stepTypeSeq b s := by
  simp only [step, stepInput, h]

theorem step_event {e : Event} (h : s.ports.inputs = .event e :: inputs) :
    step s = handleEvent e (s.withInputs inputs) := by
  simp only [step, stepInput, h, State.popInput, State.withInputs, List.tail_cons]

theorem step_of_decode {w : Word} {i : Instr} {rest : List Byte} (h : s.ports.inputs = .cmd w :: inputs)
    (hd : decode w s.ports.rxIn = .instr i rest) : step s = exec i ((s.withInputs inputs).withRxIn rest) := by
  simp only [step_command h, stepCommand, hd, State.popInput, State.withInputs, h, List.tail_cons]

theorem step_of_decodeTypeSeq {b : Byte} {i : Instr} (h : s.ports.inputs = .typeSeq b :: inputs)
    (hd : decodeTypeSeq b = some i) : step s = exec i (s.withInputs inputs) := by
  simp only [step_typeSeq h, stepTypeSeq, hd, State.popInput, State.withInputs, h, List.tail_cons]

theorem step_of_starved {w : Word} {n : Nat} (h : s.ports.inputs = .cmd w :: inputs)
    (hd : decode w s.ports.rxIn = .starved n) : step s = stepWaiting w inputs s := by
  simp only [step_command h, stepCommand, hd]

end

/-- Settles O7: the step on a word that decodes, and on a typeSeq byte that decodes. -/
theorem stepRunsDecodedInstruction : Obligations.StepRunsDecodedInstruction :=
  ⟨fun _ _ _ _ _ hin hd => step_of_decode hin hd, fun _ _ _ _ hin hd => step_of_decodeTypeSeq hin hd⟩

/-- Settles O8: with nothing to take the state is held; the first signal is found by `firstSignal_append`. -/
theorem stepHoldsStateWhileWaiting : Obligations.StepHoldsStateWhileWaiting := by
  refine ⟨fun s hin => ?_, fun s w inputs n hin hno hd => ?_, fun s w before after g n hin hno hd => ?_⟩
  · simp only [step, stepInput, hin]
  · rw [step_of_starved hin hd, stepWaiting, firstSignal_eq_none.2 hno]
  · rw [step_of_starved hin hd, stepWaiting, firstSignal_append hno]
    cases g with
    | reset => simp [signalEffect, State.whileWaiting, resetBlock, State.withInputs, State.withRxIn, State.reset]
    | takeTx k => rfl
    | rxIn bytes => rfl

theorem decodeTypeSeq_reserved {b : Byte} (h : 0x20 ≤ b.toNat) : decodeTypeSeq b = none := by
  rw [decodeTypeSeq, (typeSeqType_eq_none_iff b).2 h, Option.map_none]

/-- Settles O9: events by `step_event`, signals by `step_signal`, the refusals by the guards that raise them. -/
theorem stepHandlesOtherInputs : Obligations.StepHandlesOtherInputs := by
  refine ⟨fun s e inputs hin => step_event hin, fun s bytes inputs hin => step_event hin, fun s inputs hin => ?_,
    fun s n inputs hin => ?_, fun s bytes inputs hin => ?_, fun s b inputs hin hb => ?_, fun s inputs hin harmed => ?_,
    fun s inputs hin => step_event hin⟩
  · refine ⟨_, step_signal hin, rfl, rfl, ?_⟩
    simp [signalEffect, State.popInput, hin]
  · refine ⟨_, step_signal hin, rfl, rfl, ?_⟩
    simp [signalEffect, State.popInput, hin]
  · rw [step_signal hin]
    simp [signalEffect, offerRx, State.popInput, State.withRxIn, hin]
  · rw [step_typeSeq hin, stepTypeSeq, decodeTypeSeq_reserved hb]
  · rw [step_event hin, handleEvent, handleInactivity, if_neg (by simp [harmed])]

/-! ## No step faults (R36, R170) -/

theorem step_fault_cases {s : State} {f : Fault} (h : step s = .fault f) :
    (∃ i u, u.block = s.block ∧ exec i u = .fault f) ∨ ∃ e, handleEvent e s.popInput = .fault f := by
  unfold step stepInput at h
  split at h
  · cases h
  next w inputs hin =>
    unfold stepCommand at h
    split at h
    next i rest hd => exact .inl ⟨i, s.popInput.withRxIn rest, rfl, h⟩
    · cases h
    · unfold stepWaiting at h
      split at h <;> cases h
  next b inputs hin =>
    unfold stepTypeSeq at h
    split at h
    next i hd => exact .inl ⟨i, s.popInput, rfl, h⟩
    · cases h
  next e inputs hin => exact .inr ⟨e, h⟩
  · cases h

theorem handleEvent_not_fault {s : State} (hinv : RxInv s.block) (e : Event) (f : Fault) :
    handleEvent e s ≠ .fault f := by
  intro h
  cases e with
  | dataAvailable advertised count =>
    have hinv' : RxInv (s.readChunk advertised count).block := hinv
    obtain ⟨u, r, hdeliver⟩ := deliver_completes (s.env.unread.take count) hinv'
    rw [handleEvent, handleDataAvailable_eq, hdeliver] at h
    cases h
  | inactivityElapsed =>
    rw [handleEvent, handleInactivity] at h
    split at h <;> cases h
  | _ => cases h

/-- Settles O52: under the invariant the commands complete, and so do the handlers. -/
theorem invariantRulesOutFaults : Obligations.InvariantRulesOutFaults := by
  intro s f hinv h
  obtain ⟨i, u, hu, hexec⟩ | ⟨e, hevent⟩ := step_fault_cases h
  · obtain ⟨t, ht⟩ := exec_completes (s := u) (hu ▸ hinv) i
    rw [ht] at hexec
    cases hexec
  · exact handleEvent_not_fault (s := s.popInput) hinv e f hevent

/-! ## What is done to the block, by commands alone -/

/-- From `s` to `t` the block has gone by commands alone: what every command keeps is kept. Nothing has been taken off
`tx_out`. -/
structure ByCommands (s t : State) : Prop where
  taken : t.ports.txTaken = s.ports.txTaken
  kept : ∀ P, KeptByCommands P → P s.block → P t.block

theorem ByCommands.of_block_eq {s t : State} (hb : t.block = s.block) (htaken : t.ports.txTaken = s.ports.txTaken) :
    ByCommands s t := ⟨htaken, fun _ _ h => hb ▸ h⟩

theorem ByCommands.trans {s t u : State} (h : ByCommands s t) (h' : ByCommands t u) : ByCommands s u :=
  ⟨h'.taken.trans h.taken, fun P hP hs => h'.kept P hP (h.kept P hP hs)⟩

theorem ByCommands.complete {i : Instr} {s : State} {e : Block × Response} (h : commandEffect i s.block = some e) :
    ByCommands s (s.complete e) := ⟨rfl, fun _ hP hs => hP i _ e h hs⟩

theorem ByCommands.exec {i : Instr} {s t : State} (h : exec i s = .next t) : ByCommands s t :=
  have ⟨_, _, _, htaken, _⟩ := exec_frame h
  ⟨htaken, fun _ hP hs => hP.exec h hs⟩

theorem ByCommands.execAll {is : List Instr} {s t : State} (h : execAll is s = .next t) : ByCommands s t :=
  have ⟨_, _, _, htaken, _⟩ := execAll_frame h
  ⟨htaken, fun _ hP hs => hP.execAll h hs⟩

theorem byCommands_deliver {chunk : List Byte} {s t : State} {r : Response} (h : deliver chunk s = .next (t, r)) :
    ByCommands s t := by
  have hpush : ByCommands s (s.complete (rxPushEffect chunk s.block)) := .complete (i := .rxPush chunk) rfl
  obtain ⟨hov, -, rfl⟩ | ⟨-, B, hB, -, rfl⟩ := deliver_next_cases h
  · rwa [rxPushEffect_overrun hov] at hpush
  · exact hpush.trans (.complete (i := .rxExtract true) (rxExtractEffect_some hB))

theorem byCommands_send (ty : PacketType) (payload : List Byte) (s : State) : ByCommands s (send ty payload s).1 := by
  cases h : s.env.busy with
  | true =>
    rw [send_busy ty payload h]
    exact .of_block_eq rfl rfl
  | false =>
    have hencode := ByCommands.execAll (execAll_encodeCommands ty (sendSeq ty s.env) payload (s.admitSend ty))
    rw [send_free ty payload h]
    exact ⟨hencode.taken, hencode.kept⟩

theorem byCommands_handleKeepalive (s : State) : ByCommands s (handleKeepalive s) := by
  by_cases h : s.env.connected = false ∧ s.env.sendQueue = []
  · have hsend := byCommands_send .linkRequest [] s
    rw [handleKeepalive_attempts h.1 h.2]
    split <;> exact ⟨hsend.taken, hsend.kept⟩
  · rw [handleKeepalive, if_neg h]
    exact .of_block_eq rfl rfl

theorem byCommands_handleDataAvailable {advertised count : Nat} {s t : State}
    (h : handleDataAvailable advertised count s = .next t) : ByCommands s t := by
  rw [handleDataAvailable_eq] at h
  obtain ⟨u, r, hdeliver, rfl⟩ := afterDelivery_next h
  have hread : ByCommands s (s.readChunk advertised count) := .of_block_eq rfl rfl
  have hend : ByCommands u (onDelivered u r) :=
    .of_block_eq (onDelivered_frame u r).1 (by rw [onDelivered_ports])
  exact (hread.trans (byCommands_deliver hdeliver)).trans hend

theorem byCommands_handleEvent {e : Event} {s t : State} (h : handleEvent e s = .next t) : ByCommands s t := by
  cases e with
  | send ty payload =>
    cases h
    have hsend := byCommands_send ty payload s
    exact ⟨hsend.taken, hsend.kept⟩
  | completion k =>
    cases h
    refine .of_block_eq (handleCompletion_block k s) ?_
    rw [handleCompletion_ports]
    split <;> rfl
  | arrive bytes => cases h; exact .of_block_eq rfl rfl
  | dataAvailable advertised count => exact byCommands_handleDataAvailable h
  | inactivityElapsed =>
    rw [handleEvent, handleInactivity] at h
    split at h <;> cases h
    exact ⟨rfl, fun _ hP hs => hP .rxClear s.block _ rfl hs⟩
  | keepaliveTick => cases h; exact byCommands_handleKeepalive s
  | repoint => cases h

/-- A step changes the block by commands, or by a signal. -/
theorem step_byCommands_or_signal {s t : State} (h : step s = .next t) :
    ByCommands s t ∨
      ∃ g u, u.block = s.block ∧ u.ports.txTaken = s.ports.txTaken ∧ t = signalEffect g u := by
  obtain rfl | ⟨_, _, i, rest, -, -, hexec⟩ | ⟨_, _, _, -, -, rfl⟩ | ⟨_, _, i, -, -, hexec⟩ | ⟨e, _, -, hevent⟩ |
    ⟨g, _, -, rfl⟩ | ⟨w, _, _, g, rest, -, -, -, rfl⟩ := step_next_cases h
  · exact .inl (.of_block_eq rfl rfl)
  · have hpop : ByCommands s (s.popInput.withRxIn rest) := .of_block_eq rfl rfl
    exact .inl (hpop.trans (.exec hexec))
  · exact .inl (.of_block_eq rfl rfl)
  · have hpop : ByCommands s s.popInput := .of_block_eq rfl rfl
    exact .inl (hpop.trans (.exec hexec))
  · have hpop : ByCommands s s.popInput := .of_block_eq rfl rfl
    exact .inl (hpop.trans (byCommands_handleEvent hevent))
  · exact .inr ⟨g, s.popInput, rfl, rfl, rfl⟩
  · exact .inr ⟨g, _, State.whileWaiting_block s w rest g, State.whileWaiting_txTaken s w rest g, rfl⟩

/-! ## Emitted bytes (R20, R39) -/

theorem txOut_grows_keptByCommands (out : List Byte) : KeptByCommands fun b => out <+: b.txOut :=
  fun _ _ _ h hout => hout.trans (commandEffect_txOut_grows h)

/-- Settles O49: commands only append to `tx_out`; a signal moves bytes from it to those taken. -/
theorem emittedBytesOnlyGrow : Obligations.EmittedBytesOnlyGrow := by
  intro s t h
  obtain hcommands | ⟨g, u, hblock, htaken, rfl⟩ := step_byCommands_or_signal h
  · obtain ⟨new, hnew⟩ := hcommands.kept _ (txOut_grows_keptByCommands s.block.txOut) ⟨[], List.append_nil _⟩
    exact ⟨new, by rw [hcommands.taken, ← hnew, List.append_assoc]⟩
  · exact ⟨[], by rw [signalEffect_emitted, hblock, htaken, List.append_nil]⟩

/-! ## The invariant (R26, R141, R143, R151, R152) -/

theorem rxInv_reset : RxInv Block.reset := .clearRx Block.reset

theorem rxInv_keptByCommands : KeptByCommands RxInv := fun _ _ _ h hinv => commandEffect_rxInv h hinv

theorem rxInv_signalEffect {s : State} (h : RxInv s.block) (g : Signal) : RxInv (signalEffect g s).block := by
  cases g with
  | reset => exact rxInv_reset
  | takeTx n => exact h.congr rfl rfl
  | rxIn bytes => exact h

/-- The encoder's invariant of a block, behind the bytes already taken off `tx_out`. -/
def TxOpen (taken : List Byte) (b : Block) : Prop :=
  b.encPhase = .body →
    ∃ (before : List Byte) (t : PacketType) (sq : BitVec 3) (payload : List Byte),
      taken ++ b.txOut = before ++ openFrame (typeSeqByte t sq) payload ∧ b.txCrc = checksum (logicalBytes t sq payload)

theorem txInv_iff (s : State) : TxInv s ↔ TxOpen s.ports.txTaken s.block := Iff.rfl

theorem openFrame_nil (ts : Byte) : openFrame ts [] = Config.preamble ++ [Config.channel] ++ stuff ts := by
  simp [openFrame, stuff_channel]

theorem openFrame_concat (ts : Byte) (payload : List Byte) (x : Byte) :
    openFrame ts (payload ++ [x]) = openFrame ts payload ++ stuff x := by
  have hsplit : Config.channel :: ts :: (payload ++ [x]) = (Config.channel :: ts :: payload) ++ [x] := rfl
  rw [openFrame, hsplit, stuffAll_append, stuffAll_cons x, stuffAll_nil, List.append_nil, ← List.append_assoc,
    openFrame]

theorem txOpen_encStartEffect {taken : List Byte} {b : Block} (h : TxOpen taken b) (t : PacketType) (sq : BitVec 3) :
    TxOpen taken (encStartEffect t sq b).1 := by
  cases hb : b.encPhase with
  | idle =>
    rw [encStartEffect_idle hb]
    refine fun _ => ⟨taken ++ b.txOut, t, sq, [], ?_, rfl⟩
    rw [openFrame_nil, List.append_assoc b.txOut, List.append_assoc taken]
  | body => rwa [encStartEffect_body hb]

theorem txOpen_encDataEffect {taken : List Byte} {b : Block} (h : TxOpen taken b) (x : Byte) :
    TxOpen taken (encDataEffect x b).1 := by
  cases hb : b.encPhase with
  | idle => rwa [encDataEffect_idle hb]
  | body =>
    obtain ⟨before, t, sq, payload, hout, hcrc⟩ := h hb
    rw [encDataEffect_body hb]
    refine fun _ => ⟨before, t, sq, payload ++ [x], ?_, ?_⟩
    · rw [Block.put_txOut, ← List.append_assoc, hout, openFrame_concat, List.append_assoc]
    · rw [Block.put_txCrc, hcrc]
      exact (checksum_concat _ x).symm

theorem txOpen_encEndEffect {taken : List Byte} {b : Block} (h : TxOpen taken b) : TxOpen taken (encEndEffect b).1 := by
  cases hb : b.encPhase with
  | idle => rwa [encEndEffect_idle hb]
  | body =>
    rw [encEndEffect_body hb]
    exact fun hphase => by cases hphase

theorem txOpen_keptByCommands (taken : List Byte) : KeptByCommands (TxOpen taken) := by
  intro i b e h hopen
  cases hi : isEnc i with
  | false =>
    obtain ⟨hphase, hcrc, hout⟩ := txSide_eq_iff.1 (commandEffect_txSide h hi)
    unfold TxOpen
    rwa [hphase, hcrc, hout]
  | true =>
    cases i with
    | encStart t sq => cases h; exact txOpen_encStartEffect hopen t sq
    | encData x => cases h; exact txOpen_encDataEffect hopen x
    | encEnd => cases h; exact txOpen_encEndEffect hopen
    | _ => cases hi

theorem txInv_signalEffect {s : State} (h : TxInv s) (g : Signal) : TxInv (signalEffect g s) := by
  have hemitted := signalEffect_emitted g s
  cases g with
  | reset => exact fun hphase => by cases hphase
  | takeTx n =>
    intro hphase
    obtain ⟨before, t, sq, payload, hout, hcrc⟩ := h hphase
    exact ⟨before, t, sq, payload, hemitted.trans hout, hcrc⟩
  | rxIn bytes => exact h

/-- What `EnvInv` says of the send gate. -/
def BusyIffOutstanding (e : Env) : Prop := e.busy = true ↔ 0 < e.outstanding

/-- An admitted `send` has some bytes outstanding: ENCODE emits some in every phase. -/
theorem busyIffOutstanding_send {s : State} (h : BusyIffOutstanding s.env) (ty : PacketType) (payload : List Byte) :
    BusyIffOutstanding (send ty payload s).1.env := by
  cases hb : s.env.busy with
  | true => rwa [send_busy ty payload hb]
  | false =>
    have hpos := (encodeOnBlock_appends ty (sendSeq ty s.env) payload (s.admitSend ty)).2
    rw [send_free ty payload hb]
    exact iff_of_true rfl hpos

theorem busyIffOutstanding_handleKeepalive {s : State} (h : BusyIffOutstanding s.env) :
    BusyIffOutstanding (handleKeepalive s).env := by
  by_cases hattempt : s.env.connected = false ∧ s.env.sendQueue = []
  · rw [handleKeepalive_attempts hattempt.1 hattempt.2]
    split <;> exact busyIffOutstanding_send h .linkRequest []
  · rwa [handleKeepalive, if_neg hattempt]

theorem busyIffOutstanding_handleEvent {e : Event} {s t : State} (hevent : handleEvent e s = .next t)
    (h : BusyIffOutstanding s.env) : BusyIffOutstanding t.env := by
  cases e with
  | send ty payload => cases hevent; exact busyIffOutstanding_send h ty payload
  | completion k =>
    cases hevent
    unfold BusyIffOutstanding at h ⊢
    rw [handleCompletion_env]
    simp only [Bool.and_eq_true, h, decide_eq_true_eq]
    omega
  | arrive bytes => cases hevent; exact h
  | dataAvailable advertised count =>
    rw [handleEvent, handleDataAvailable_eq] at hevent
    obtain ⟨u, r, hdeliver, rfl⟩ := afterDelivery_next hevent
    rw [onDelivered_env, (deliver_frame hdeliver).1]
    exact h
  | inactivityElapsed =>
    rw [handleEvent, handleInactivity] at hevent
    split at hevent <;> cases hevent
    exact h
  | keepaliveTick => cases hevent; exact busyIffOutstanding_handleKeepalive h
  | repoint => cases hevent

theorem busyIffOutstanding_step {s t : State} (hstep : step s = .next t) (h : BusyIffOutstanding s.env) :
    BusyIffOutstanding t.env := by
  obtain rfl | ⟨_, _, _, _, -, -, hexec⟩ | ⟨_, _, _, -, -, rfl⟩ | ⟨_, _, _, -, -, hexec⟩ | ⟨_, _, -, hevent⟩ |
    ⟨_, _, -, rfl⟩ | ⟨_, _, _, _, _, -, -, -, rfl⟩ := step_next_cases hstep
  · exact h
  · rwa [exec_env hexec]
  · exact h
  · rwa [exec_env hexec]
  · exact busyIffOutstanding_handleEvent hevent h
  · rwa [signalEffect_env]
  · rwa [signalEffect_env, State.whileWaiting_env]

theorem envInv_step {s t : State} (hstep : step s = .next t) (h : EnvInv s.env) : EnvInv t.env := by
  obtain ⟨hconnected, hqueue⟩ := Prod.mk.inj (step_connection hstep)
  exact ⟨busyIffOutstanding_step hstep h.busy_iff, hconnected.trans h.connected, hqueue.trans h.queue⟩

/-- Settles O51: both sides of the block by what every command keeps and what a signal does; the environment by
`envInv_step`. -/
theorem stepKeepsInvariant : Obligations.StepKeepsInvariant := by
  intro s t hinv hstep
  obtain hcommands | ⟨g, u, hblock, htaken, rfl⟩ := step_byCommands_or_signal hstep
  · refine ⟨hcommands.kept _ rxInv_keptByCommands hinv.rx, ?_, envInv_step hstep hinv.env⟩
    rw [txInv_iff, hcommands.taken]
    exact hcommands.kept _ (txOpen_keptByCommands _) hinv.tx
  · have htx : TxInv u := by
      rw [txInv_iff, hblock, htaken]
      exact hinv.tx
    exact ⟨rxInv_signalEffect (hblock ▸ hinv.rx) g, txInv_signalEffect htx g, envInv_step hstep hinv.env⟩

/-- Settles O11: the buffer is empty, the encoder idle, nothing outstanding. -/
theorem resetMeetsInvariant : Obligations.ResetMeetsInvariant :=
  ⟨⟨rxInv_reset, (fun hphase => by cases hphase), ⟨by decide, rfl, rfl⟩⟩, rfl, rfl, rfl, rfl, rfl, rfl⟩

end Sys2Proof.Machine
end

section
/-! PROOFS. Family other: no step reads an output log (R21, R24). -/

namespace Sys2Proof.Machine

/-- The same block, environment and pending inputs and bytes; the output logs are free. -/
structure SameButLogs (s v : State) : Prop where
  block : v.block = s.block
  env : v.env = s.env
  inputs : v.ports.inputs = s.ports.inputs
  rxIn : v.ports.rxIn = s.ports.rxIn

/-! ## Commands -/

theorem SameButLogs.complete {s v : State} (h : SameButLogs s v) (e : Block × Response) :
    SameButLogs (s.complete e) (v.complete e) := ⟨rfl, h.env, h.inputs, h.rxIn⟩

theorem SameButLogs.output {s v : State} (h : SameButLogs s v) (o : HostOutput) :
    SameButLogs (s.output o) (v.output o) := ⟨h.block, h.env, h.inputs, h.rxIn⟩

theorem SameButLogs.withEnv {s v : State} (h : SameButLogs s v) (e : Env) :
    SameButLogs { s with env := e } { v with env := e } := ⟨h.block, rfl, h.inputs, h.rxIn⟩

theorem SameButLogs.popInput {s v : State} (h : SameButLogs s v) : SameButLogs s.popInput v.popInput :=
  ⟨h.block, h.env, congrArg List.tail h.inputs, h.rxIn⟩

theorem SameButLogs.withRxIn {s v : State} (h : SameButLogs s v) (rest : List Byte) :
    SameButLogs (s.withRxIn rest) (v.withRxIn rest) := ⟨h.block, h.env, h.inputs, rfl⟩

theorem SameButLogs.withInputs {s v : State} (h : SameButLogs s v) (inputs : List Input) :
    SameButLogs (s.withInputs inputs) (v.withInputs inputs) := ⟨h.block, h.env, rfl, h.rxIn⟩

theorem exec_sameButLogs {s v : State} (h : SameButLogs s v) (i : Instr) :
    OutcomeRel SameButLogs (exec i s) (exec i v) := by
  cases hi : isCommand i with
  | true =>
    rw [exec_command hi, exec_command hi, h.block]
    cases commandEffect i s.block with
    | none => exact .fault _
    | some e => exact .next (h.complete e)
  | false =>
    obtain ⟨ty, sq, rfl⟩ := isCommand_false hi
    rw [exec_typeSeq, exec_typeSeq]
    exact .next ⟨h.block, h.env, h.inputs, h.rxIn⟩

theorem foldl_encData_sameButLogs (payload : List Byte) {s v : State} (h : SameButLogs s v) :
    SameButLogs (payload.foldl (fun s b => s.complete (encDataEffect b s.block)) s)
      (payload.foldl (fun s b => s.complete (encDataEffect b s.block)) v) := by
  induction payload generalizing s v with
  | nil => exact h
  | cons b bs ih =>
    rw [List.foldl_cons, List.foldl_cons, h.block]
    exact ih (h.complete _)

theorem encodeOnBlock_sameButLogs {s v : State} (h : SameButLogs s v) (t : PacketType) (sq : BitVec 3)
    (payload : List Byte) :
    SameButLogs (encodeOnBlock t sq payload s).1 (encodeOnBlock t sq payload v).1 ∧
      (encodeOnBlock t sq payload v).2 = (encodeOnBlock t sq payload s).2 := by
  have hstarted := h.complete (encStartEffect t sq s.block)
  have hfilled := foldl_encData_sameButLogs payload hstarted
  have hended := hfilled.complete (encEndEffect
    (payload.foldl (fun s b => s.complete (encDataEffect b s.block)) (s.complete (encStartEffect t sq s.block))).block)
  simp only [encodeOnBlock, h.block, hfilled.block]
  exact ⟨hended, by rw [hended.block]⟩

/-! ## Handlers -/

theorem send_sameButLogs {s v : State} (h : SameButLogs s v) (t : PacketType) (payload : List Byte) :
    SameButLogs (send t payload s).1 (send t payload v).1 ∧ (send t payload v).2 = (send t payload s).2 := by
  cases hb : s.env.busy with
  | true =>
    rw [send_busy t payload hb, send_busy t payload (h.env ▸ hb)]
    exact ⟨h, rfl⟩
  | false =>
    have hadmit : SameButLogs (s.admitSend t) (v.admitSend t) := by
      rw [State.admitSend, State.admitSend, h.env]
      exact h.withEnv _
    obtain ⟨hsame, hframe⟩ := encodeOnBlock_sameButLogs hadmit t (sendSeq t s.env) payload
    rw [send_free t payload hb, send_free t payload (h.env ▸ hb), h.env, hframe, hadmit.env]
    exact ⟨(hsame.withEnv _).output _, rfl⟩

theorem handleKeepalive_sameButLogs {s v : State} (h : SameButLogs s v) :
    SameButLogs (handleKeepalive s) (handleKeepalive v) := by
  obtain ⟨hsame, hok⟩ := send_sameButLogs h .linkRequest []
  by_cases hattempt : s.env.connected = false ∧ s.env.sendQueue = []
  · rw [handleKeepalive_attempts hattempt.1 hattempt.2,
      handleKeepalive_attempts (h.env ▸ hattempt.1) (h.env ▸ hattempt.2), hok]
    split
    · exact hsame
    · exact hsame.output _
  · rw [handleKeepalive, handleKeepalive, h.env, if_neg hattempt, if_neg hattempt]
    exact h

theorem handleCompletion_sameButLogs {s v : State} (h : SameButLogs s v) (k : Nat) :
    SameButLogs (handleCompletion k s) (handleCompletion k v) := by
  rw [handleCompletion, handleCompletion, h.env]
  split
  · exact (h.withEnv _).output _
  · exact h.withEnv _

theorem onDelivered_sameButLogs {s v : State} (h : SameButLogs s v) (r : Response) :
    SameButLogs (onDelivered s r) (onDelivered v r) := by
  cases r with
  | okMessage m =>
    rw [onDelivered, onDelivered, h.env]
    exact (h.withEnv _).output _
  | overrun => exact h.output _
  | _ => exact h

theorem afterDelivery_deliver_sameButLogs {s v : State} (h : SameButLogs s v) (chunk : List Byte) :
    OutcomeRel SameButLogs (afterDelivery (deliver chunk s)) (afterDelivery (deliver chunk v)) := by
  have hpushed := h.complete (rxPushEffect chunk s.block)
  simp only [deliver, h.block, State.complete_block]
  split
  · exact .next (onDelivered_sameButLogs hpushed _)
  · cases rxExtractEffect true (rxPushEffect chunk s.block).1 with
    | none => exact .fault _
    | some e => exact .next (onDelivered_sameButLogs (hpushed.complete e) _)

theorem readChunk_sameButLogs {s v : State} (h : SameButLogs s v) (advertised count : Nat) :
    SameButLogs (s.readChunk advertised count) (v.readChunk advertised count) := by
  refine ⟨h.block, ?_, h.inputs, h.rxIn⟩
  simp only [State.readChunk, h.env]

theorem handleEvent_sameButLogs {s v : State} (h : SameButLogs s v) (e : Event) :
    OutcomeRel SameButLogs (handleEvent e s) (handleEvent e v) := by
  cases e with
  | send ty payload =>
    obtain ⟨hsame, hok⟩ := send_sameButLogs h ty payload
    simp only [handleEvent, handleSend, hok]
    exact .next (hsame.output _)
  | completion k => exact .next (handleCompletion_sameButLogs h k)
  | arrive bytes =>
    simp only [handleEvent, handleArrive, h.env]
    exact .next (h.withEnv _)
  | dataAvailable advertised count =>
    rw [handleEvent, handleEvent, handleDataAvailable_eq, handleDataAvailable_eq, h.env]
    exact afterDelivery_deliver_sameButLogs (readChunk_sameButLogs h advertised count) _
  | inactivityElapsed =>
    rw [handleEvent, handleEvent, handleInactivity, handleInactivity, h.env]
    split
    · exact .next ⟨congrArg Block.clearRx h.block, by rw [State.complete_env, State.complete_env], h.inputs, h.rxIn⟩
    · exact .refused _
  | keepaliveTick => exact .next (handleKeepalive_sameButLogs h)
  | repoint => exact .refused _

/-! ## The step -/

theorem signalEffect_sameButLogs {s v : State} (h : SameButLogs s v) (g : Signal) :
    SameButLogs (signalEffect g s) (signalEffect g v) := by
  cases g with
  | reset => exact ⟨rfl, h.env, h.inputs, h.rxIn⟩
  | takeTx n => exact ⟨by simp only [signalEffect, takeTx_block, h.block], h.env, h.inputs, h.rxIn⟩
  | rxIn bytes => exact ⟨h.block, h.env, h.inputs, congrArg (· ++ bytes) h.rxIn⟩

theorem whileWaiting_sameButLogs {s v : State} (h : SameButLogs s v) (w : Word) (rest : List Input) (g : Signal) :
    SameButLogs (s.whileWaiting w rest g) (v.whileWaiting w rest g) := by
  cases g with
  | reset => exact (h.withInputs rest).withRxIn []
  | takeTx n => exact h.withInputs _
  | rxIn bytes => exact h.withInputs _

theorem stepWaiting_sameButLogs {s v : State} (h : SameButLogs s v) (w : Word) (inputs : List Input) :
    OutcomeRel SameButLogs (stepWaiting w inputs s) (stepWaiting w inputs v) := by
  unfold stepWaiting
  cases firstSignal inputs with
  | none => exact .next h
  | some p => exact .next (signalEffect_sameButLogs (whileWaiting_sameButLogs h w p.2 p.1) p.1)

theorem stepCommand_sameButLogs {s v : State} (h : SameButLogs s v) (w : Word) (inputs : List Input) :
    OutcomeRel SameButLogs (stepCommand w inputs s) (stepCommand w inputs v) := by
  unfold stepCommand
  rw [h.rxIn]
  cases decode w s.ports.rxIn with
  | instr i rest => exact exec_sameButLogs (h.popInput.withRxIn rest) i
  | reserved why =>
    rw [h.block]
    exact .next (h.popInput.complete _)
  | starved n => exact stepWaiting_sameButLogs h w inputs

theorem stepTypeSeq_sameButLogs {s v : State} (h : SameButLogs s v) (b : Byte) :
    OutcomeRel SameButLogs (stepTypeSeq b s) (stepTypeSeq b v) := by
  unfold stepTypeSeq
  cases decodeTypeSeq b with
  | none => exact .refused _
  | some i => exact exec_sameButLogs h.popInput i

theorem step_sameButLogs {s v : State} (h : SameButLogs s v) : OutcomeRel SameButLogs (step s) (step v) := by
  unfold step stepInput
  rw [h.inputs]
  cases s.ports.inputs with
  | nil => exact .next h
  | cons input inputs =>
    cases input with
    | cmd w => exact stepCommand_sameButLogs h w inputs
    | typeSeq b => exact stepTypeSeq_sameButLogs h b
    | event e => exact handleEvent_sameButLogs h.popInput e
    | signal g => exact .next (signalEffect_sameButLogs h.popInput g)

/-- The state with other output logs. -/
def State.withLogs (s : State) (resp : List Response) (fields : List (PacketType × BitVec 3)) (taken : List Byte)
    (host : List HostOutput) : State :=
  { s with ports := { s.ports with resp := resp, typeSeqRead := fields, txTaken := taken, host := host } }

/-- Settles O48, by `step_sameButLogs`. -/
theorem outputLogsAreNeverRead : Obligations.OutputLogsAreNeverRead := by
  intro s resp fields taken host
  have hrel := step_sameButLogs (s := s) (v := s.withLogs resp fields taken host) ⟨rfl, rfl, rfl, rfl⟩
  unfold State.withLogs at hrel
  generalize step { s with
    ports := { s.ports with resp := resp, typeSeqRead := fields, txTaken := taken, host := host } } = o at hrel
  generalize step s = p at hrel
  cases hrel with
  | next h => exact ⟨h.block, h.env, h.inputs, h.rxIn⟩
  | fault f => rfl
  | refused r => rfl

end Sys2Proof.Machine
end
